-- ==== Sys2Proof/Config.lean ====
section
/-! DEFINITION. The implementation parameters of 00_scope.md R5 and R6 that are numbers the machine reads.
The widths of R5 (word, counter, kept counter, kind, payload) are the types of Word.lean and Decode.lean.
`N_WIDTH` is OPEN and the model uses a natural number (R6, D25); `RESYNC_EXT` is fixed false and
`DESYNC_TIMEOUT` is fixed absent (R6, D16), so no definition reads either. The spec leaves no value free,
so this file holds no opaque constant. -/

namespace Sys2Proof.Config

/-- `RECORD_BYTES`: bytes per wire record (00_scope.md R5). -/
def recordBytes : Nat := 8

/-- `LOW_WATERMARK`: DECODE_ONE refills when the buffer holds fewer words than this (00_scope.md R5). -/
def lowWatermark : Nat := 10

/-- `REFILL_BATCH`: words requested per refill (00_scope.md R5, D9). -/
def refillBatch : Nat := 100

/-- `FIFO_DEPTH`: the occupancy no reachable state exceeds (00_scope.md R6, 10_state.md R24). -/
def fifoDepth : Nat := lowWatermark - 1 + refillBatch

@[simp] theorem recordBytes_eq : recordBytes = 8 := rfl
@[simp] theorem lowWatermark_eq : lowWatermark = 10 := rfl
@[simp] theorem refillBatch_eq : refillBatch = 100 := rfl
@[simp] theorem fifoDepth_eq : fifoDepth = 109 := rfl

end Sys2Proof.Config
end

