-- ==== Sys2Proof/Word.lean ====
section
/-! DEFINITION. The fixed-width words of the block (00_scope.md R5, 30_encoding.md R60 to R62). -/

namespace Sys2Proof

/-- One byte of the RX channel (20_memory.md R40). -/
abbrev Byte := BitVec 8

/-- The protocol word `V`, `WORD_BITS` = 32 (30_encoding.md R62). -/
abbrev Word := BitVec 32

/-- The payload `V[23:0]`, `PAYLOAD_BITS` = 24 (30_encoding.md R62, R65). -/
abbrev Payload := BitVec 24

/-- The kept half of the wire counter, `SEQ_BITS` = 16 (30_encoding.md R61). -/
abbrev Seq := BitVec 16

/-- The source set of R15: bit 0 Helper, bit 1 Prelock (10_state.md R15). -/
abbrev SourceSet := BitVec 2

end Sys2Proof
end

