-- ==== Sys2Proof/Syntax.lean ====
section
/-! DEFINITION. The block's instructions: the sixteen word kinds of spec/opcode_table.json (30_encoding.md R64),
the RawWord that carries one, and the written form of a word (30_encoding.md R74). -/

namespace Sys2Proof

/-- The four bits of a word outside its kind and payload (30_encoding.md R62). -/
structure Marks where
  /-- `T`, bit 31: the terminator. -/
  t : Bool
  /-- `P`, bit 30: the prelock source flag. -/
  p : Bool
  /-- `H`, bit 29: the helper source flag. -/
  h : Bool
  /-- Bit 28, unassigned: any value, read by no rule (R68). -/
  x : Bool
  deriving DecidableEq, Repr

/-- A protocol word by its kind. Every constructor carries all the other bits of the word, the ignored
ones too (R68, R69); the meaning masks the payload, as R65 says. -/
inductive Instr where
  | y (m : Marks) (v : Payload)
  | err (m : Marks) (v : Payload)
  | tag (m : Marks) (v : Payload)
  | period (m : Marks) (v : Payload)
  | event (m : Marks) (v : Payload)
  | ref (m : Marks) (v : Payload)
  | sampleid (m : Marks) (v : Payload)
  | unk7 (m : Marks) (v : Payload)
  | unk8 (m : Marks) (v : Payload)
  | unk9 (m : Marks) (v : Payload)
  | unk10 (m : Marks) (v : Payload)
  | unk11 (m : Marks) (v : Payload)
  | unk12 (m : Marks) (v : Payload)
  | unk13 (m : Marks) (v : Payload)
  | unk14 (m : Marks) (v : Payload)
  | unk15 (m : Marks) (v : Payload)
  deriving DecidableEq, Repr

/-- A RawWord: a word with the low 16 bits of its sequence counter (10_state.md R22). -/
structure RawWord where
  word : Word
  seq : Seq
  deriving DecidableEq, Repr

/-- The decoded view of one word (41_field_decode.md R100). Bit 28 and `seq` are not part of it. -/
structure TaggedField where
  terminator : Bool
  sourcePrelock : Bool
  sourceHelper : Bool
  kind : BitVec 4
  payload : Payload
  deriving DecidableEq, Repr

/-- The written form `KIND(value).T.P.H.X` of 30_encoding.md R74, as a term: `kind` and `value` are the
numbers as written, so that one can be out of range. -/
structure WordText where
  kind : Nat
  value : Int
  t : Bool
  p : Bool
  h : Bool
  x : Bool
  deriving DecidableEq, Repr

/-- The fields every word has, whatever its kind. -/
def Instr.marks : Instr → Marks
  | .y m _ | .err m _ | .tag m _ | .period m _ | .event m _ | .ref m _ | .sampleid m _ | .unk7 m _
  | .unk8 m _ | .unk9 m _ | .unk10 m _ | .unk11 m _ | .unk12 m _ | .unk13 m _ | .unk14 m _ | .unk15 m _ => m

/-- The payload `V[23:0]`, unmasked. -/
def Instr.payload : Instr → Payload
  | .y _ v | .err _ v | .tag _ v | .period _ v | .event _ v | .ref _ v | .sampleid _ v | .unk7 _ v
  | .unk8 _ v | .unk9 _ v | .unk10 _ v | .unk11 _ v | .unk12 _ v | .unk13 _ v | .unk14 _ v | .unk15 _ v => v

/-- The field kind `V[27:24]` of each row (30_encoding.md R64). -/
def Instr.kind : Instr → BitVec 4
  | .y _ _ => 0
  | .err _ _ => 1
  | .tag _ _ => 2
  | .period _ _ => 3
  | .event _ _ => 4
  | .ref _ _ => 5
  | .sampleid _ _ => 6
  | .unk7 _ _ => 7
  | .unk8 _ _ => 8
  | .unk9 _ _ => 9
  | .unk10 _ _ => 10
  | .unk11 _ _ => 11
  | .unk12 _ _ => 12
  | .unk13 _ _ => 13
  | .unk14 _ _ => 14
  | .unk15 _ _ => 15

end Sys2Proof
end

