-- ==== Sys2Proof/WellFormed.lean ====
section
/-! DEFINITION. What is well formed: every word (30_encoding.md R73), every record of 8 bytes (R60, R73), and the
written words whose kind and value 30_encoding.md R74 admits. -/

namespace Sys2Proof

/-- Every word of every kind is legal: "There is no illegal encoding" (30_encoding.md R73). -/
def Instr.wf : Instr → Bool
  | .y _ _ | .err _ _ | .tag _ _ | .period _ _ | .event _ _ | .ref _ _ | .sampleid _ _ | .unk7 _ _
  | .unk8 _ _ | .unk9 _ _ | .unk10 _ _ | .unk11 _ _ | .unk12 _ _ | .unk13 _ _ | .unk14 _ _ | .unk15 _ _ => true

/-- The only unit taken from RX is a record of exactly 8 bytes (30_encoding.md R60). -/
def recordWf (bytes : List Byte) : Bool := bytes.length == 8

/-- A written kind is one of the sixteen (30_encoding.md R74). -/
def WordText.kindOk (a : WordText) : Bool := decide (a.kind < 16)

/-- A written value is the 24-bit payload, and for ERR it may be a signed decimal from -8388608 to 8388607
instead (30_encoding.md R74). -/
def WordText.valueOk (a : WordText) : Bool :=
  (decide (0 ≤ a.value) && decide (a.value ≤ 0xFFFFFF)) ||
    (a.kind == 1 && decide (-8388608 ≤ a.value) && decide (a.value ≤ 8388607))

/-- Both checks of the written form (30_encoding.md R74). -/
def WordText.wf (a : WordText) : Bool := a.kindOk && a.valueOk

end Sys2Proof
end

