-- ==== Sys2Proof/Decode.lean ====
section
/-! DEFINITION. From bytes to a record, from a word to an instruction, and back (20_memory.md R41, 30_encoding.md R60
to R75, 40_frame_sync.md R80, 41_field_decode.md R100). A word is never rejected (R73); a list of bytes
that is no whole record is, by name. -/

namespace Sys2Proof

/-- Why a list of bytes is no record: 30_encoding.md R60 knows records of exactly 8 bytes only. -/
inductive DecodeError where
  /-- Fewer than 8 bytes: the record is not complete (20_memory.md R44). -/
  | shortRecord
  /-- More than 8 bytes: not one record. -/
  | longRecord
  deriving DecidableEq, Repr

/-! Fields of a word. -/

/-- `T`, `P`, `H` and the unassigned bit 28 (30_encoding.md R62). -/
def marksOf (V : Word) : Marks :=
  { t := V.getLsbD 31, p := V.getLsbD 30, h := V.getLsbD 29, x := V.getLsbD 28 }

/-- `V[27:24]`, the field kind (30_encoding.md R62). -/
def kindOf (V : Word) : BitVec 4 := V.extractLsb' 24 4

/-- `V[23:0]`, the payload (30_encoding.md R65). -/
def payloadOf (V : Word) : Payload := V.extractLsb' 0 24

/-- `tf(V)` of 41_field_decode.md R100. -/
def taggedField (V : Word) : TaggedField :=
  { terminator := V.getLsbD 31
    sourcePrelock := V.getLsbD 30
    sourceHelper := V.getLsbD 29
    kind := kindOf V
    payload := payloadOf V }

/-- The constructor of a kind (30_encoding.md R64); the kind has 4 bits, so the last line is kind 15. -/
def ofKind (k : BitVec 4) (m : Marks) (v : Payload) : Instr :=
  match k.toNat with
  | 0 => .y m v
  | 1 => .err m v
  | 2 => .tag m v
  | 3 => .period m v
  | 4 => .event m v
  | 5 => .ref m v
  | 6 => .sampleid m v
  | 7 => .unk7 m v
  | 8 => .unk8 m v
  | 9 => .unk9 m v
  | 10 => .unk10 m v
  | 11 => .unk11 m v
  | 12 => .unk12 m v
  | 13 => .unk13 m v
  | 14 => .unk14 m v
  | _ => .unk15 m v

/-- The instruction a word is: total, by the kind alone (30_encoding.md R64, R73). -/
def decode (V : Word) : Instr := ofKind (kindOf V) (marksOf V) (payloadOf V)

/-! Records. -/

/-- Four bytes in arrival order as a little-endian 32-bit value (20_memory.md R41). -/
def le32 (b0 b1 b2 b3 : Byte) : BitVec 32 :=
  b0.setWidth 32 ||| b1.setWidth 32 <<< 8 ||| b2.setWidth 32 <<< 16 ||| b3.setWidth 32 <<< 24

/-- Two bytes in arrival order as a little-endian 16-bit value (40_frame_sync.md R80). -/
def le16 (b0 b1 : Byte) : BitVec 16 := b0.setWidth 16 ||| b1.setWidth 16 <<< 8

/-- `parse(r)` of 40_frame_sync.md R80: bytes 0 to 3 are the word, bytes 4 and 5 the kept counter half,
bytes 6 and 7 are taken and ignored. -/
def parseRecord : List Byte → Except DecodeError RawWord
  | [b0, b1, b2, b3, b4, b5, _, _] => .ok { word := le32 b0 b1 b2 b3, seq := le16 b4 b5 }
  | bytes => .error (if bytes.length < 8 then .shortRecord else .longRecord)

/-- The instruction of one record's bytes. -/
def decodeRecord (bytes : List Byte) : Except DecodeError Instr :=
  match parseRecord bytes with
  | .ok r => .ok (decode r.word)
  | .error e => .error e

/-- The records of a byte sequence, cut at multiples of 8 from its first byte; a rest of 1 to 7 bytes is no
record (20_memory.md R42, 40_frame_sync.md R80). -/
def recordsOf : List Byte → List RawWord
  | b0 :: b1 :: b2 :: b3 :: b4 :: b5 :: _ :: _ :: rest =>
    { word := le32 b0 b1 b2 b3, seq := le16 b4 b5 } :: recordsOf rest
  | _ => []

/-! The encoder. -/

/-- One bit at place `k` of a word. -/
def bitAt (b : Bool) (k : Nat) : Word := (BitVec.ofBool b).setWidth 32 <<< k

/-- `enc(kind, value, T, P, H, X)` of 30_encoding.md R75. -/
def encodeFields (k : BitVec 4) (v : Payload) (m : Marks) : Word :=
  bitAt m.t 31 ||| bitAt m.p 30 ||| bitAt m.h 29 ||| bitAt m.x 28 |||
    k.setWidth 32 <<< 24 ||| v.setWidth 32

/-- The word of an instruction (30_encoding.md R75). -/
def encode (i : Instr) : Word := encodeFields i.kind i.payload i.marks

/-- `record(V, C)` of 30_encoding.md R75: `V` then `C`, each least significant byte first. -/
def encodeRecord (V C : BitVec 32) : List Byte :=
  [V.extractLsb' 0 8, V.extractLsb' 8 8, V.extractLsb' 16 8, V.extractLsb' 24 8,
   C.extractLsb' 0 8, C.extractLsb' 8 8, C.extractLsb' 16 8, C.extractLsb' 24 8]

/-! The written form (30_encoding.md R74). -/

/-- The word a written form stands for: `value & 0xFFFFFF` is the payload (30_encoding.md R74, R75). -/
def WordText.encode (a : WordText) : Word :=
  encodeFields (BitVec.ofNat 4 a.kind) (BitVec.ofInt 24 a.value) { t := a.t, p := a.p, h := a.h, x := a.x }

/-- The mnemonic of a kind (30_encoding.md R64). -/
def kindName (k : Nat) : String :=
  ["Y", "ERR", "TAG", "PERIOD", "EVENT", "REF", "SAMPLEID", "UNK7", "UNK8", "UNK9", "UNK10", "UNK11",
    "UNK12", "UNK13", "UNK14", "UNK15"].getD k ""

/-- The text of a written word, its value in decimal (30_encoding.md R74). -/
def WordText.render (a : WordText) : String :=
  kindName a.kind ++ "(" ++ toString a.value ++ ")" ++ (if a.t then ".T" else "") ++
    (if a.p then ".P" else "") ++ (if a.h then ".H" else "") ++ (if a.x then ".X" else "")

/-- The written form of an instruction, every value unsigned (30_encoding.md R74). -/
def WordText.ofInstr (i : Instr) : WordText :=
  { kind := i.kind.toNat, value := i.payload.toNat, t := i.marks.t, p := i.marks.p, h := i.marks.h,
    x := i.marks.x }

/-! The opcode table's numbering of an instruction's bits. -/

/-- The 8 bytes of the record that holds the low `nbits` bits of `w`, every bit above them 0: `V` is bits
31 to 0, the counter is bits 63 to 32, both least significant byte first (30_encoding.md R60). -/
def tableBytes (nbits w : Nat) : List Byte :=
  encodeRecord (BitVec.ofNat 32 (w % 2 ^ nbits)) (BitVec.ofNat 32 (w % 2 ^ nbits / 2 ^ 32))

/-- The RawWord of those bytes. -/
def tableRecord (nbits w : Nat) : RawWord :=
  match parseRecord (tableBytes nbits w) with
  | .ok r => r
  | .error _ => { word := 0, seq := 0 }

/-- The instruction the decoder reads from an instruction whose bits are `w`; none for more bits than a record has. -/
def decodeTableWord (nbits w : Nat) : Option Instr :=
  if nbits ≤ 64 then
    match decodeRecord (tableBytes nbits w) with
    | .ok i => some i
    | .error _ => none
  else none

end Sys2Proof
end

