-- ==== Sys2Proof/Machine/State.lean ====
section
/-! DEFINITION. The state of the block as plain data (10_state.md R10), its channels, the turns of its environment, and the
state after reset (10_state.md R29). INVENTORY.md says of every field which rule names it. -/

namespace Sys2Proof.Machine

/-- Reasons for which the model stops with a fault. The block's own exceptions are none of them: an exception is
taken, as a next state (60_exceptions.md R166). -/
inductive Fault where
  /-- `FifoPop` of an empty `BUF`, "defined only when `len(BUF) > 0`" (00_scope.md section 5). Raised by the word
  turn of DECODE_ONE if it popped without the refill of 42_event_assembly.md R125; it never does, so no step
  raises it. Safe: the model would stop. -/
  | popEmpty
  deriving DecidableEq, Repr

/-- Reasons for which the model gives no meaning. -/
inductive Refusal where
  /-- An instruction that has no meaning yet, by its mnemonic. Raised by `exec` alone, and by no arm of it now.
  Safe: the model stops. -/
  | notModelled (mnemonic : String)
  deriving DecidableEq, Repr

/-- An Event, in progress or finalized (10_state.md R11, R16). The widths are R11's container types; `err` is
the 32-bit two's-complement pattern of a signed number. -/
structure Event where
  sampleId : BitVec 32
  y : BitVec 16
  err : BitVec 32
  tag : BitVec 32
  ref : BitVec 32
  period : BitVec 16
  eventCode : BitVec 24
  source : SourceSet
  deriving DecidableEq, Repr

/-- `DEFAULT_EVENT` (10_state.md R14). -/
def Event.default : Event :=
  { sampleId := 0, y := 0, err := 0, tag := 0, ref := 0, period := 0, eventCode := 0, source := 0 }

/-- What FS owns: the synchronisation latch (10_state.md R17) and the bytes of an incomplete record (R26). -/
structure FrameSync where
  synced : Bool
  asm : List Byte
  deriving DecidableEq, Repr

/-- What LF owns: the trigger latch (10_state.md R18), and the count and result of the READ (R28). -/
structure Filter where
  logging : Bool
  count : Nat
  result : List Event
  deriving DecidableEq, Repr

/-- The configuration registers (10_state.md R20). -/
structure Cfg where
  trigEn : Bool
  trigCode : BitVec 24
  srcEn : Bool
  srcVal : SourceSet
  n : Nat
  unbounded : Bool
  deriving DecidableEq, Repr

/-- The status registers (10_state.md R19). `err`: 0 none, 1 ConnectionError, 2 TransportError, 3 DesyncTimeout. -/
structure Status where
  connected : Bool
  err : BitVec 2
  done : Bool
  busy : Bool
  deriving DecidableEq, Repr

/-- The exception kinds (60_exceptions.md R160). -/
inductive Exc where
  | connectionError
  | transportError
  | desyncTimeout
  deriving DecidableEq, Repr

/-- The connection as the transport has it (20_memory.md R40). -/
inductive Link where
  /-- No connection is open. -/
  | absent
  /-- Open: more bytes may arrive. -/
  | up
  /-- Closed, dropped or failed: no more bytes will arrive (60_exceptions.md R162). -/
  | ended
  deriving DecidableEq, Repr

/-- The operand of CONNECT (40_frame_sync.md R89). The address is only passed on and compared, so a number names it. -/
structure Endpoint where
  address : Nat
  port : Nat
  deriving DecidableEq, Repr

/-- Who issued the DECODE_ONE in progress: the host, or a READ with the `CFG` it sampled (43_lock_cycle_filter.md
R145, 20_memory.md R51). -/
inductive Caller where
  | host
  | read (c : Cfg)
  deriving DecidableEq, Repr

/-- Where in DECODE_ONE the block stands (42_event_assembly.md R123). -/
inductive Phase where
  /-- Before the entry check (R124); for a READ, at the loop test of 43_lock_cycle_filter.md R145. -/
  | entry
  /-- In the refill of the entry check or of an empty buffer (R125, R126), with the words READ_N has collected. -/
  | refill (atEntry : Bool) (out : List RawWord)
  /-- In the loop that pops words. -/
  | words
  deriving DecidableEq, Repr

/-- The command in progress and where it stands. The MODEL's control state (log 3). -/
inductive Activity where
  | idle
  /-- CONNECT, with the transport's answer (40_frame_sync.md R89). -/
  | connecting (reached : Bool)
  /-- A host's READ_N, with what it has collected (40_frame_sync.md R85). -/
  | readN (n : Nat) (out : List RawWord)
  /-- DECODE_ONE, for the host or inside a READ (42_event_assembly.md R123). -/
  | decode (caller : Caller) (phase : Phase)
  deriving DecidableEq, Repr

/-- What the block hands to the host (60_exceptions.md R165, R176; log 16). -/
inductive Reply where
  /-- CONNECT succeeded. -/
  | connected
  /-- READ_N returned these RawWords. -/
  | words (out : List RawWord)
  /-- DECODE_ONE returned this Event. -/
  | event (e : Event)
  /-- READ returned this result. -/
  | events (es : List Event)
  /-- The outermost command ended by an exception. -/
  | raised (x : Exc)
  /-- The values of `ST`, `FS.synced` and `LF.logging`. -/
  | status (st : Status) (synced logging : Bool)
  /-- The Event the host took from EVT. -/
  | taken (e : Event)
  deriving DecidableEq, Repr

/-- A host write of one configuration register (10_state.md R20, R21). -/
inductive CfgWrite where
  | trigEn (b : Bool)
  | trigCode (c : BitVec 24)
  | srcEn (b : Bool)
  | srcVal (v : SourceSet)
  | n (k : Nat)
  | unbounded (b : Bool)
  deriving DecidableEq, Repr

/-- The host's actions, the rows of the table of 60_exceptions.md R176. -/
inductive HostAct where
  | reset
  | connect (ep : Endpoint)
  | writeCfg (w : CfgWrite)
  | read
  | decodeOne
  | readN (n : Nat)
  | readStatus
  | takeEvent
  | closeTransport
  deriving DecidableEq, Repr

/-- The transport's actions (20_memory.md R40, 60_exceptions.md R161, R162). -/
inductive TransportAct where
  /-- From now on exactly these endpoints can be reached. -/
  | setReachable (eps : List Endpoint)
  /-- These bytes arrive on the connection. -/
  | deliver (bytes : List Byte)
  /-- The peer closes: the bytes that have arrived are still there, no more will come. -/
  | close
  /-- A read error or a drop: bytes not yet taken are lost and no more will come. -/
  | fail
  deriving DecidableEq, Repr

/-- One entry of the agenda: who moves next (log 1). -/
inductive Turn where
  | host (a : HostAct)
  | transport (a : TransportAct)
  | block
  deriving DecidableEq, Repr

/-- The machine: the block's state (10_state.md R10), the spec's bookkeeping (R27), its channels and
environment (R30), and the model's control state. -/
structure State where
  fs : FrameSync
  buf : List RawWord
  ev : Event
  lf : Filter
  cfg : Cfg
  st : Status
  /-- The command in progress. The MODEL's own field (log 3). -/
  act : Activity
  /-- The Event the last word step finalized, not yet returned by DECODE_ONE. The MODEL's own field (log 3). -/
  fin : Option Event
  /-- RX bytes that have arrived and are not yet taken (20_memory.md R40). -/
  rx : List Byte
  link : Link
  reachable : List Endpoint
  /-- Events on EVT, not yet taken by the host (20_memory.md R47). -/
  evt : List Event
  /-- What the block has handed to the host, oldest first. The MODEL's own field (log 16). -/
  replies : List Reply
  /-- `rx_records` of 10_state.md R27. -/
  rxRecords : Nat
  /-- `refills` of 10_state.md R27. -/
  refills : Nat
  /-- The turns still to come. The MODEL's own field (log 1). -/
  agenda : List Turn
  deriving DecidableEq, Repr

/-- The machine right after reset or power-up: every element at its value of 10_state.md R29; the channels, the bookkeeping and
the model's own fields empty (log 12). -/
def State.reset : State :=
  { fs := { synced := false, asm := [] }
    buf := []
    ev := Event.default
    lf := { logging := false, count := 0, result := [] }
    cfg := { trigEn := false, trigCode := 0, srcEn := false, srcVal := 0, n := 0, unbounded := false }
    st := { connected := false, err := 0, done := false, busy := false }
    act := .idle
    fin := none
    rx := []
    link := .absent
    reachable := []
    evt := []
    replies := []
    rxRecords := 0
    refills := 0
    agenda := [] }

end Sys2Proof.Machine
end

