-- ==== Sys2Proof/Machine/Operands.lean ====
section
/-! DEFINITION. The operand forms of a word: the payload masked per kind (30_encoding.md R65, R66), and the names of
event codes (10_state.md R16). -/

namespace Sys2Proof.Machine

/-- `V[23:0]` as an unsigned 32-bit field: SAMPLEID, TAG, REF (30_encoding.md R65). -/
def payload24 (v : Payload) : BitVec 32 := v.setWidth 32

/-- `V[15:0]`: Y; `V[23:16]` ignored (30_encoding.md R65). -/
def payload16 (v : Payload) : BitVec 16 := v.setWidth 16

/-- `V[11:0]` as an unsigned 16-bit field: PERIOD; `V[23:12]` ignored (30_encoding.md R65). -/
def payload12 (v : Payload) : BitVec 16 := (v.setWidth 12).setWidth 16

/-- `sext_24(V[23:0])` as a 32-bit pattern: ERR (30_encoding.md R66). -/
def sext24 (v : Payload) : BitVec 32 := v.signExtend 32

/-- The EventKind enumeration (10_state.md R16); a code without a name is kept as its number (30_encoding.md R70). -/
inductive EventKind where
  | none
  | pllStartup
  | pllLocked
  | unnamed (code : BitVec 24)
  deriving DecidableEq, Repr

/-- The name of an event code (10_state.md R16). Nothing in the block reads it: the 24 bits are what is stored. -/
def eventKind (code : BitVec 24) : EventKind :=
  if code = 0 then .none else if code = 1 then .pllStartup else if code = 2 then .pllLocked else .unnamed code

end Sys2Proof.Machine
end

