-- ==== Sys2Proof/Machine/Flags.lean ====
section
/-! DEFINITION. The flags: a word's source bits (41_field_decode.md R109), the synchronisation latch (40_frame_sync.md R81
to R83), the trigger latch and the tests of LF (43_lock_cycle_filter.md R140 to R145), the halted condition (10_state.md R19). -/

namespace Sys2Proof.Machine

/-- `V[30] << 1 | V[29]`: bit 1 prelock, bit 0 helper (41_field_decode.md R109, 10_state.md R15). -/
def sourceBits (m : Marks) : SourceSet :=
  (BitVec.ofBool m.p).setWidth 2 <<< 1 ||| (BitVec.ofBool m.h).setWidth 2

/-- The source part of a word, on the Event its field part left (41_field_decode.md R109, R111). -/
def sourcePart (m : Marks) (e : Event) : Event := { e with source := e.source ||| sourceBits m }

/-- Bit 31 of a word: the terminator (30_encoding.md R62). -/
def terminatorBit (V : Word) : Bool := V.getLsbD 31

/-- `FS.synced` after FS has seen a word: once set it stays, and a word with bit 31 set sets it (40_frame_sync.md R81, R82, R83). -/
def syncedAfter (synced : Bool) (V : Word) : Bool := synced || terminatorBit V

/-- Step 1 of LF: there is no trigger, or the Event's code is the trigger code (43_lock_cycle_filter.md R141, R150). -/
def arms (c : Cfg) (e : Event) : Bool := !c.trigEn || e.eventCode == c.trigCode

/-- `LF.logging` after step 1 (43_lock_cycle_filter.md R141, R144). -/
def loggingAfter (logging : Bool) (c : Cfg) (e : Event) : Bool := logging || arms c e

/-- The source filter: there is none, or the Event's set equals the configured one (43_lock_cycle_filter.md R142, R150). -/
def sourceMatches (c : Cfg) (e : Event) : Bool := !c.srcEn || e.source == c.srcVal

/-- Step 2 of LF: whether the Event is appended, given the latch before the Event (43_lock_cycle_filter.md R142, R143). -/
def appends (logging : Bool) (c : Cfg) (e : Event) : Bool := loggingAfter logging c e && sourceMatches c e

/-- The loop test of READ (43_lock_cycle_filter.md R145). -/
def wantsMore (c : Cfg) (count : Nat) : Bool := c.unbounded || decide (count < c.n)

/-- "The block is *halted* exactly when `ST.err != 0`" (10_state.md R19). -/
def Status.halted (st : Status) : Bool := st.err != 0

/-- The condition of READ, DECODE_ONE and READ_N (60_exceptions.md R176). -/
def Status.ready (st : Status) : Bool := st.connected && !st.halted && !st.busy

end Sys2Proof.Machine
end

