-- ==== Sys2Proof/Machine/Ops.lean ====
section
/-! DEFINITION. The named operations over the channels and the registers: `RxTake`, `FifoPush`, `FifoPop`, `EvtEmit`
(00_scope.md section 5), the FS word step, the parts of an ED word step, the LF Event step, taking an exception
(60_exceptions.md R166) and RESET, the only way out of the halted state (60_exceptions.md R167). -/

namespace Sys2Proof.Machine

/-- Hands something to the host. -/
def reply (r : Reply) (s : State) : State := { s with replies := s.replies ++ [r] }

/-- `FifoPush`, for a list of RawWords in order (20_memory.md R46). -/
def fifoPush (ws : List RawWord) (s : State) : State := { s with buf := s.buf ++ ws }

/-- `FifoPop`: the front of `BUF` and the state without it; none on an empty `BUF` (20_memory.md R46). -/
def fifoPop (s : State) : Option (RawWord × State) :=
  match s.buf with
  | [] => none
  | w :: rest => some (w, { s with buf := rest })

/-- `EvtEmit` (20_memory.md R47). -/
def evtEmit (e : Event) (s : State) : State := { s with evt := s.evt ++ [e] }

/-- The code of an exception in `ST.err` (60_exceptions.md R160). -/
def Exc.code : Exc → BitVec 2
  | .connectionError => 1
  | .transportError => 2
  | .desyncTimeout => 3

/-- The Events on EVT that outlive an end of the command in progress other than its completion: all but those the READ in
progress has placed there, which are the last `LF.count` placed, as far as the host has not taken them. Those are void
and never delivered (60_exceptions.md R166, 93_implementation_defined.md U26, 43_lock_cycle_filter.md R148; log 29). -/
def validEvents (s : State) : List Event :=
  match s.act with
  | .decode (.read _) _ => s.evt.take (s.evt.length - s.lf.count)
  | .idle | .connecting _ | .readN _ _ | .decode .host _ => s.evt

/-- TAKING AN EXCEPTION (60_exceptions.md R165, R166): every command in progress ends, `ST.err` records the kind,
`ST.busy` and `ST.done` become 0, the Events of a failed READ are void, the host learns of it; nothing is saved
and nothing is restored. -/
def raise (x : Exc) (s : State) : State :=
  { s with
    st := { s.st with err := x.code, busy := false, done := false }
    act := .idle
    evt := validEvents s
    replies := s.replies ++ [.raised x] }

/-- RESET (70_reset_and_hazards.md R190): every state element at its reset value, the connection closed, any command
abandoned and its result void, its Events on EVT too (log 29). What is outside the block stays: the Events of other commands on EVT, what the host was
handed, the endpoints the transport can reach, the turns to come (log 13). -/
def resetBlock (s : State) : State :=
  { State.reset with
    reachable := s.reachable, evt := validEvents s, replies := s.replies, agenda := s.agenda }

/-- A command returns to the host (60_exceptions.md R176). -/
def commandReturn (r : Reply) (s : State) : State :=
  { s with st := { s.st with busy := false }, act := .idle, replies := s.replies ++ [r] }

/-! RX. -/

/-- What `RxTake(8)` comes to (60_exceptions.md R162, R174). -/
inductive RxResult where
  /-- A record was taken. -/
  | record (w : RawWord) (s : State)
  /-- Not yet 8 bytes, and more may come: the block waits, the bytes that came lie in `FS.asm`. -/
  | waiting (s : State)
  /-- Not 8 bytes, and no more will come: `TransportError`; the bytes are lost. -/
  | broken (s : State)
  deriving DecidableEq, Repr

/-- `RxTake(8)` with `parse` (20_memory.md R44, 40_frame_sync.md R80, 10_state.md R26). -/
def rxTake (s : State) : RxResult :=
  let missing := Config.recordBytes - s.fs.asm.length
  let got := s.fs.asm ++ s.rx.take missing
  let left := s.rx.drop missing
  match parseRecord got with
  | .ok w =>
    .record w { s with fs := { s.fs with asm := [] }, rx := left, rxRecords := s.rxRecords + 1 }
  | .error _ =>
    match s.link with
    | .up => .waiting { s with fs := { s.fs with asm := got }, rx := left }
    | .absent | .ended => .broken { s with fs := { s.fs with asm := [] }, rx := left }

/-- The output of one FS word step: the word once synced, else nothing (40_frame_sync.md R81, R82, R83). -/
def fsOutput (synced : Bool) (w : RawWord) : List RawWord := if synced then [w] else []

/-- The state after one FS word step (40_frame_sync.md R81, R82, R83). -/
def fsWordStep (w : RawWord) (s : State) : State :=
  { s with fs := { s.fs with synced := syncedAfter s.fs.synced w.word } }

/-- What one turn of READ_N comes to (40_frame_sync.md R85). -/
inductive ReadNResult where
  /-- The loop goes on, with this output so far. -/
  | going (out : List RawWord) (s : State)
  /-- `len(out) < n` is false: READ_N returns its output. -/
  | returned (s : State)
  /-- `RxTake` raised (40_frame_sync.md R87). -/
  | failed (s : State)
  deriving DecidableEq, Repr

/-- One turn of the loop of READ_N (40_frame_sync.md R85, R86, R87). -/
def readNTurn (n : Nat) (out : List RawWord) (s : State) : ReadNResult :=
  if out.length < n then
    match rxTake s with
    | .record w s1 => .going (out ++ fsOutput s.fs.synced w) (fsWordStep w s1)
    | .waiting s1 => .going out s1
    | .broken s1 => .failed s1
  else .returned s

/-! ED. -/

/-- The source part and the terminator part of a word, after its field part left the Event `field`: without `T` the
Event goes on, with `T` it is finalized and `EV` returns to `DEFAULT_EVENT` (41_field_decode.md R109, R110,
R111, 42_event_assembly.md R120, R122). -/
def finishWord (m : Marks) (field : Event) (s : State) : State :=
  { s with
    ev := if m.t then Event.default else sourcePart m field
    fin := if m.t then some (sourcePart m field) else s.fin }

/-! LF. -/

/-- The LF Event step (43_lock_cycle_filter.md R140): step 1 arms the latch, step 2 appends, counts and emits. -/
def lfStep (c : Cfg) (e : Event) (s : State) : State :=
  { s with
    lf :=
      { logging := loggingAfter s.lf.logging c e
        count := if appends s.lf.logging c e then s.lf.count + 1 else s.lf.count
        result := if appends s.lf.logging c e then s.lf.result ++ [e] else s.lf.result }
    evt := if appends s.lf.logging c e then s.evt ++ [e] else s.evt }

/-- READ completes by count (43_lock_cycle_filter.md R145, R148). -/
def readComplete (s : State) : State :=
  { s with
    st := { s.st with done := true, busy := false }
    act := .idle
    replies := s.replies ++ [.events s.lf.result] }

end Sys2Proof.Machine
end

