-- ==== Sys2Proof/Machine/FieldWords.lean ====
section
/-! DEFINITION. The seven kinds that write a field (41_field_decode.md R101 to R107). Each meaning is its field part,
then the source part and the terminator part of every word (`finishWord`). -/

namespace Sys2Proof.Machine

/-- Y (41_field_decode.md R101). -/
def execY (m : Marks) (v : Payload) (s : State) : Host.Outcome State Fault Refusal :=
  .next (finishWord m { s.ev with y := payload16 v } s)

/-- ERR (41_field_decode.md R102). -/
def execErr (m : Marks) (v : Payload) (s : State) : Host.Outcome State Fault Refusal :=
  .next (finishWord m { s.ev with err := sext24 v } s)

/-- TAG (41_field_decode.md R103). -/
def execTag (m : Marks) (v : Payload) (s : State) : Host.Outcome State Fault Refusal :=
  .next (finishWord m { s.ev with tag := payload24 v } s)

/-- PERIOD (41_field_decode.md R104). -/
def execPeriod (m : Marks) (v : Payload) (s : State) : Host.Outcome State Fault Refusal :=
  .next (finishWord m { s.ev with period := payload12 v } s)

/-- EVENT (41_field_decode.md R105). -/
def execEvent (m : Marks) (v : Payload) (s : State) : Host.Outcome State Fault Refusal :=
  .next (finishWord m { s.ev with eventCode := v } s)

/-- REF (41_field_decode.md R106). -/
def execRef (m : Marks) (v : Payload) (s : State) : Host.Outcome State Fault Refusal :=
  .next (finishWord m { s.ev with ref := payload24 v } s)

/-- SAMPLEID (41_field_decode.md R107). -/
def execSampleid (m : Marks) (v : Payload) (s : State) : Host.Outcome State Fault Refusal :=
  .next (finishWord m { s.ev with sampleId := payload24 v } s)

end Sys2Proof.Machine
end

