-- ==== Sys2Proof/Machine/UnknownWords.lean ====
section
/-! DEFINITION. The nine unknown kinds (41_field_decode.md R108): the field part writes nothing and the payload is ignored;
the source part and the terminator part act as on any word. -/

namespace Sys2Proof.Machine

/-- UNK7 (41_field_decode.md R108). -/
def execUnk7 (m : Marks) (_v : Payload) (s : State) : Host.Outcome State Fault Refusal :=
  .next (finishWord m s.ev s)

/-- UNK8 (41_field_decode.md R108). -/
def execUnk8 (m : Marks) (_v : Payload) (s : State) : Host.Outcome State Fault Refusal :=
  .next (finishWord m s.ev s)

/-- UNK9 (41_field_decode.md R108). -/
def execUnk9 (m : Marks) (_v : Payload) (s : State) : Host.Outcome State Fault Refusal :=
  .next (finishWord m s.ev s)

/-- UNK10 (41_field_decode.md R108). -/
def execUnk10 (m : Marks) (_v : Payload) (s : State) : Host.Outcome State Fault Refusal :=
  .next (finishWord m s.ev s)

/-- UNK11 (41_field_decode.md R108). -/
def execUnk11 (m : Marks) (_v : Payload) (s : State) : Host.Outcome State Fault Refusal :=
  .next (finishWord m s.ev s)

/-- UNK12 (41_field_decode.md R108). -/
def execUnk12 (m : Marks) (_v : Payload) (s : State) : Host.Outcome State Fault Refusal :=
  .next (finishWord m s.ev s)

/-- UNK13 (41_field_decode.md R108). -/
def execUnk13 (m : Marks) (_v : Payload) (s : State) : Host.Outcome State Fault Refusal :=
  .next (finishWord m s.ev s)

/-- UNK14 (41_field_decode.md R108). -/
def execUnk14 (m : Marks) (_v : Payload) (s : State) : Host.Outcome State Fault Refusal :=
  .next (finishWord m s.ev s)

/-- UNK15 (41_field_decode.md R108). -/
def execUnk15 (m : Marks) (_v : Payload) (s : State) : Host.Outcome State Fault Refusal :=
  .next (finishWord m s.ev s)

end Sys2Proof.Machine
end

