-- ==== Sys2Proof/Machine/Dispatch.lean ====
section
/-! DEFINITION. The meaning of every instruction: the ED word step of 42_event_assembly.md R120, by kind. -/

namespace Sys2Proof.Machine

def exec (i : Instr) (s : State) : Host.Outcome State Fault Refusal :=
  match i with
  | .y m v => Sys2Proof.Machine.execY m v s
  | .err m v => Sys2Proof.Machine.execErr m v s
  | .tag m v => Sys2Proof.Machine.execTag m v s
  | .period m v => Sys2Proof.Machine.execPeriod m v s
  | .event m v => Sys2Proof.Machine.execEvent m v s
  | .ref m v => Sys2Proof.Machine.execRef m v s
  | .sampleid m v => Sys2Proof.Machine.execSampleid m v s
  | .unk7 m v => Sys2Proof.Machine.execUnk7 m v s
  | .unk8 m v => Sys2Proof.Machine.execUnk8 m v s
  | .unk9 m v => Sys2Proof.Machine.execUnk9 m v s
  | .unk10 m v => Sys2Proof.Machine.execUnk10 m v s
  | .unk11 m v => Sys2Proof.Machine.execUnk11 m v s
  | .unk12 m v => Sys2Proof.Machine.execUnk12 m v s
  | .unk13 m v => Sys2Proof.Machine.execUnk13 m v s
  | .unk14 m v => Sys2Proof.Machine.execUnk14 m v s
  | .unk15 m v => Sys2Proof.Machine.execUnk15 m v s

end Sys2Proof.Machine
end

