-- ==== Sys2Proof/Machine/Control.lean ====
section
/-! DEFINITION. The commands in progress, one turn at a time: CONNECT and READ_N (40_frame_sync.md R85, R89), DECODE_ONE
and its refills (42_event_assembly.md R123 to R128), READ (43_lock_cycle_filter.md R145 to R151). -/

namespace Sys2Proof.Machine

/-- The end of CONNECT (40_frame_sync.md R89): a fresh connection, or `ConnectionError` (60_exceptions.md R161). -/
def connectTurn (reached : Bool) (s : State) : State :=
  if reached then
    commandReturn .connected
      { s with
        fs := { synced := false, asm := [] }
        buf := []
        ev := Event.default
        st := { s.st with connected := true }
        fin := none
        rx := []
        link := .up
        rxRecords := 0
        refills := 0 }
  else raise .connectionError s

/-- One turn of a host's READ_N: its output goes to the host, not into `BUF` (40_frame_sync.md R85). -/
def hostReadNTurn (n : Nat) (out : List RawWord) (s : State) : State :=
  match readNTurn n out s with
  | .going out' s1 => { s1 with act := .readN n out' }
  | .returned s1 => commandReturn (.words out) s1
  | .failed s1 => raise .transportError s1

/-- A refill starts: it counts as started even if it fails (42_event_assembly.md R126, 10_state.md R27). -/
def startRefill (caller : Caller) (atEntry : Bool) (s : State) : State :=
  { s with act := .decode caller (.refill atEntry []), refills := s.refills + 1 }

/-- After the entry check: `EV` starts from `DEFAULT_EVENT` and the loop begins (42_event_assembly.md R121, R123). -/
def startWords (caller : Caller) (s : State) : State :=
  { s with act := .decode caller .words, ev := Event.default }

/-- Whether the caller asks for one more Event (43_lock_cycle_filter.md R145); a host's DECODE_ONE asks for one. -/
def callerWants (caller : Caller) (s : State) : Bool :=
  match caller with
  | .host => true
  | .read c => wantsMore c s.lf.count

/-- The entry of DECODE_ONE, after the loop test of a READ (42_event_assembly.md R124, 43_lock_cycle_filter.md R145). -/
def entryTurn (caller : Caller) (s : State) : State :=
  if callerWants caller s then
    if s.buf.length < Config.lowWatermark then startRefill caller true s else startWords caller s
  else readComplete s

/-- One turn of a refill: a READ_N(100) whose output is appended to `BUF` in one step once it has succeeded; a failure is
the failure of DECODE_ONE and of READ (42_event_assembly.md R126, R128, 20_memory.md R45, R46). -/
def refillTurn (caller : Caller) (atEntry : Bool) (out : List RawWord) (s : State) : State :=
  match readNTurn Config.refillBatch out s with
  | .going out' s1 => { s1 with act := .decode caller (.refill atEntry out') }
  | .returned s1 =>
    if atEntry then startWords caller (fifoPush out s1)
    else { fifoPush out s1 with act := .decode caller .words }
  | .failed s1 => raise .transportError s1

/-- DECODE_ONE returns an Event to its caller: to the host, or to the READ that steps LF and loops
(42_event_assembly.md R123, 43_lock_cycle_filter.md R145). -/
def deliver (caller : Caller) (e : Event) (s : State) : State :=
  match caller with
  | .host => commandReturn (.event e) { s with fin := none }
  | .read c => lfStep c e { s with fin := none, act := .decode (.read c) .entry }

/-- The loop of DECODE_ONE: return a finalized Event, refill an empty buffer, or pop a word and run it
(42_event_assembly.md R120, R123, R125). -/
def wordTurn (caller : Caller) (s : State) : Host.Outcome State Fault Refusal :=
  match s.fin with
  | some e => .next (deliver caller e s)
  | none =>
    if s.buf.isEmpty then .next (startRefill caller false s)
    else
      match fifoPop s with
      | some (w, s1) => exec (decode w.word) s1
      | none => .fault .popEmpty

/-- A turn of the block: nothing happens unless a command is in progress (00_scope.md R7, 20_memory.md R52). -/
def blockTurn (s : State) : Host.Outcome State Fault Refusal :=
  match s.act with
  | .idle => .next s
  | .connecting reached => .next (connectTurn reached s)
  | .readN n out => .next (hostReadNTurn n out s)
  | .decode caller .entry => .next (entryTurn caller s)
  | .decode caller (.refill atEntry out) => .next (refillTurn caller atEntry out s)
  | .decode caller .words => wordTurn caller s

/-- The state whose next turn pops `w` in a DECODE_ONE of the host: `w` at the front of `BUF`, the block connected, not
halted and busy with that command, no other agent's turn before it (log 6). -/
def placeWord (w : RawWord) (s : State) : State :=
  { s with
    buf := w :: s.buf
    st := { s.st with connected := true, err := 0, busy := true }
    act := .decode .host .words
    fin := none
    agenda := [] }

end Sys2Proof.Machine
end

