-- ==== Sys2Proof/Machine/Environment.lean ====
section
/-! DEFINITION. The turns of the host (60_exceptions.md R176) and of the transport (20_memory.md R40, 60_exceptions.md R161,
R162, R175), and the choice of whose turn it is (log 1). A host action whose condition does not hold has no
effect (R176, log 5). -/

namespace Sys2Proof.Machine

/-- A write of one configuration register (10_state.md R20). -/
def Cfg.write (w : CfgWrite) (c : Cfg) : Cfg :=
  match w with
  | .trigEn b => { c with trigEn := b }
  | .trigCode k => { c with trigCode := k }
  | .srcEn b => { c with srcEn := b }
  | .srcVal v => { c with srcVal := v }
  | .n k => { c with n := k }
  | .unbounded b => { c with unbounded := b }

/-- A command starts: it holds `ST.busy` from here to its return or exception (60_exceptions.md R176, 90_conflicts.md C13). -/
def startCommand (a : Activity) (s : State) : State :=
  { s with st := { s.st with busy := true }, act := a }

/-- READ starts (43_lock_cycle_filter.md R145): `CFG` is sampled, `ST.done` and all of LF are cleared. -/
def startRead (s : State) : State :=
  { s with
    st := { s.st with busy := true, done := false }
    lf := { logging := false, count := 0, result := [] }
    act := .decode (.read s.cfg) .entry }

/-- The host takes the oldest Event from EVT (20_memory.md R47). The void Events of a failed READ are no longer there
(60_exceptions.md R166, `validEvents`). -/
def takeEvent (s : State) : State :=
  match s.evt with
  | [] => s
  | e :: rest => { s with evt := rest, replies := s.replies ++ [.taken e] }

/-- The connection ends and bytes not yet taken are lost (log 8); without a connection nothing happens. While CONNECT is in
progress this is the old connection only, and CONNECT still opens a fresh one: DESIGN CHOICE (log 30). -/
def breakLink (s : State) : State :=
  match s.link with
  | .absent => s
  | .up | .ended => { s with link := .ended, rx := [] }

/-- One action of the host (60_exceptions.md R176). -/
def hostTurn (a : HostAct) (s : State) : State :=
  match a with
  | .reset => resetBlock s
  | .connect ep =>
    if !s.st.halted && !s.st.busy then startCommand (.connecting (s.reachable.contains ep)) s else s
  | .writeCfg w => if s.st.busy then s else { s with cfg := s.cfg.write w }
  | .read => if s.st.ready then startRead s else s
  | .decodeOne => if s.st.ready then startCommand (.decode .host .entry) s else s
  | .readN n => if s.st.ready then startCommand (.readN n []) s else s
  | .readStatus => reply (.status s.st s.fs.synced s.lf.logging) s
  | .takeEvent => takeEvent s
  | .closeTransport => breakLink s

/-- One action of the transport. Bytes arrive only on an open connection. -/
def transportTurn (a : TransportAct) (s : State) : State :=
  match a with
  | .setReachable eps => { s with reachable := eps }
  | .deliver bytes =>
    match s.link with
    | .up => { s with rx := s.rx ++ bytes }
    | .absent | .ended => s
  | .close =>
    match s.link with
    | .up => { s with link := .ended }
    | .absent | .ended => s
  | .fail => breakLink s

/-- One turn of whoever moves. -/
def turn (t : Turn) (s : State) : Host.Outcome State Fault Refusal :=
  match t with
  | .host a => .next (hostTurn a s)
  | .transport a => .next (transportTurn a s)
  | .block => blockTurn s

/-- The next turn of the agenda; with none left it is the block's turn (log 1). -/
def nextTurn (s : State) : Host.Outcome State Fault Refusal :=
  match s.agenda with
  | [] => blockTurn s
  | t :: rest => turn t { s with agenda := rest }

end Sys2Proof.Machine
end

