-- ==== Sys2Proof/Machine/Step.lean ====
section
/-! DEFINITION. One step of the machine, and the placing of an instruction where the next step runs it. -/

namespace Sys2Proof.Machine

/-- One step: one turn of the host, of the transport or of the block (20_memory.md R49, log 1, log 2). -/
def step (s : State) : Host.Outcome State Fault Refusal := nextTurn s

/-- `s` with the instruction whose bits are `w` as the next word a DECODE_ONE pops (log 6). -/
def State.withFetchWord (s : State) (nbits w : Nat) : State := placeWord (tableRecord nbits w) s

end Sys2Proof.Machine
end

