-- ==== Sys2Proof/Machine/StreamForms.lean ====
section
/-! DEFINITION. FS, ED and LF as functions of the stream: the pure forms of 40_frame_sync.md R90, 42_event_assembly.md R130 and
43_lock_cycle_filter.md R152, written from those rules and not from the step. -/

namespace Sys2Proof.Machine

/-- `sync(s, ws)` of 40_frame_sync.md R90, on RawWords (the sequence number passes through, R92). -/
def syncWords : Bool → List RawWord → List RawWord
  | true, ws => ws
  | false, [] => []
  | false, w :: rest => if terminatorBit w.word then rest else syncWords false rest

/-- The field part of a word, by its kind (41_field_decode.md R101 to R108). -/
def fieldPart (i : Instr) (e : Event) : Event :=
  match i with
  | .y _ v => { e with y := payload16 v }
  | .err _ v => { e with err := sext24 v }
  | .tag _ v => { e with tag := payload24 v }
  | .period _ v => { e with period := payload12 v }
  | .event _ v => { e with eventCode := v }
  | .ref _ v => { e with ref := payload24 v }
  | .sampleid _ v => { e with sampleId := payload24 v }
  | .unk7 _ _ | .unk8 _ _ | .unk9 _ _ | .unk10 _ _ | .unk11 _ _ | .unk12 _ _ | .unk13 _ _ | .unk14 _ _
  | .unk15 _ _ => e

/-- The Event after the field part and the source part of a word (41_field_decode.md R111). -/
def wordEvent (V : Word) (e : Event) : Event := sourcePart (marksOf V) (fieldPart (decode V) e)

/-- `go(ev, ws)` of 42_event_assembly.md R130: the finalized Events and the residual `EV`. -/
def assembleFrom : Event → List Word → List Event × Event
  | ev, [] => ([], ev)
  | ev, V :: rest =>
    if terminatorBit V then
      (wordEvent V ev :: (assembleFrom Event.default rest).1, (assembleFrom Event.default rest).2)
    else assembleFrom (wordEvent V ev) rest

/-- `assemble(ws)` of 42_event_assembly.md R130. -/
def assemble (ws : List Word) : List Event × Event := assembleFrom Event.default ws

/-- `go(l, es)` of 43_lock_cycle_filter.md R152, for a configuration `c`. -/
def filterFrom (c : Cfg) : Bool → List Event → List Event
  | _, [] => []
  | l, e :: rest =>
    if appends l c e then e :: filterFrom c (loggingAfter l c e) rest
    else filterFrom c (loggingAfter l c e) rest

/-- `lf(c, es)` of 43_lock_cycle_filter.md R152. -/
def filterEvents (c : Cfg) (es : List Event) : List Event := filterFrom c false es

end Sys2Proof.Machine
end

