-- ==== Sys2Proof/Safety.lean ====
section
/-! DEFINITION. What claims speak of: the ranges of Event fields (10_state.md R11), the invariant of the block, and what a
state still has to say: the words and Events that lie in its buffers and on RX. -/

namespace Sys2Proof.Machine

/-- `k` steps, stopping at a fault or a refusal: the host's `Core.run` on this machine (Laws.runFor_eq_core_run),
over the machine's own types. -/
def runFor : Nat → State → Host.Outcome State Fault Refusal
  | 0, s => .next s
  | k + 1, s =>
    match step s with
    | .next t => runFor k t
    | .fault r => .fault r
    | .refused r => .refused r

/-- The value ranges of 10_state.md R11 that the container types do not give by themselves. -/
def Event.InRange (e : Event) : Prop :=
  e.sampleId.toNat ≤ 0xFFFFFF ∧ e.tag.toNat ≤ 0xFFFFFF ∧ e.ref.toNat ≤ 0xFFFFFF ∧ e.period.toNat ≤ 0xFFF ∧
    -0x800000 ≤ e.err.toInt ∧ e.err.toInt ≤ 0x7FFFFF

/-- Every Event a reply holds is in range. -/
def Reply.InRange : Reply → Prop
  | .event e => e.InRange
  | .events es => ∀ e ∈ es, e.InRange
  | .taken e => e.InRange
  | .connected | .words _ | .raised _ | .status _ _ _ => True

/-- A READ_N is running, for the host or as a refill, that has not yet collected all it was asked for, so that an
`RxTake` may be waiting (40_frame_sync.md R85). -/
def Activity.takesRecords : Activity → Bool
  | .readN n out => decide (out.length < n)
  | .decode _ (.refill _ out) => decide (out.length < Config.refillBatch)
  | .idle | .connecting _ | .decode _ .entry | .decode _ .words => false

/-- The block stands inside the loop of DECODE_ONE, where `EV` may hold an Event in progress. -/
def Activity.insideEvent : Activity → Bool
  | .decode _ (.refill atEntry _) => !atEntry
  | .decode _ .words => true
  | .idle | .connecting _ | .readN _ _ | .decode _ .entry => false

/-- What the READ_N in progress has collected. -/
def Activity.collected : Activity → List RawWord
  | .readN _ out => out
  | .decode _ (.refill _ out) => out
  | .idle | .connecting _ | .decode _ .entry | .decode _ .words => []

/-- What the refill in progress will append to `BUF`. -/
def Activity.refillOut : Activity → List RawWord
  | .decode _ (.refill _ out) => out
  | .idle | .connecting _ | .readN _ _ | .decode _ .entry | .decode _ .words => []

/-- The command in progress needs a connection (60_exceptions.md R176). -/
def Activity.needsConnection : Activity → Bool
  | .readN _ _ => true
  | .decode _ _ => true
  | .idle | .connecting _ => false

/-- The invariant of the block. It rules out states no run reaches; every part cites its rule. -/
structure State.Inv (s : State) : Prop where
  /-- Code 3 is reserved (60_exceptions.md R163). -/
  errLegal : s.st.err ≠ 3
  /-- `ST.busy` is 1 exactly while a command is in progress (10_state.md R19). -/
  busyIff : s.st.busy = true ↔ s.act ≠ .idle
  /-- A halted block runs no command (60_exceptions.md R166). -/
  haltedIdle : s.st.err ≠ 0 → s.act = .idle
  /-- READ, DECODE_ONE and READ_N run only when connected (60_exceptions.md R176). -/
  needsConnected : s.act.needsConnection = true → s.st.connected = true
  /-- A connected block has a connection, open or ended. -/
  connectedLink : s.st.connected = true → s.link ≠ .absent
  /-- `ST.done` is 0 during a READ and in the halted state (10_state.md R19, 60_exceptions.md R166). -/
  doneQuiet : s.st.done = true → s.st.err = 0 ∧ ∀ c ph, s.act ≠ .decode (.read c) ph
  /-- `FS.asm` holds 0 to 7 bytes (10_state.md R26). -/
  asmShort : s.fs.asm.length ≤ 7
  /-- `FS.asm` is empty whenever no `RxTake` is waiting (10_state.md R26). -/
  asmEmpty : s.act.takesRecords = false → s.fs.asm = []
  /-- The occupancy bound (10_state.md R24). -/
  bufBound : s.buf.length ≤ Config.fifoDepth
  /-- An unsynced FS has handed nothing upward (40_frame_sync.md R90). -/
  unsyncedEmpty : s.fs.synced = false → s.buf = [] ∧ s.act.collected = []
  /-- READ_N collects at most what was asked for (40_frame_sync.md R85). -/
  readNBound : ∀ n out, s.act = .readN n out → out.length ≤ n
  /-- A refill starts below the watermark at a DECODE_ONE entry, or on an empty buffer inside an Event
  (42_event_assembly.md R124, R125), and collects at most a batch (R126). -/
  refillBound : ∀ c atEntry out, s.act = .decode c (.refill atEntry out) →
    out.length ≤ Config.refillBatch ∧ s.buf.length < Config.lowWatermark ∧ (atEntry = false → s.buf = [])
  /-- `EV` is `DEFAULT_EVENT` outside the loop of DECODE_ONE, unless the block is halted (10_state.md R14,
  43_lock_cycle_filter.md R153). -/
  evBoundary : s.st.err = 0 → s.act.insideEvent = false → s.ev = Event.default
  /-- A finalized Event is returned before the next word is popped, and `EV` is `DEFAULT_EVENT` then
  (42_event_assembly.md R122, R123). -/
  finBoundary : s.fin ≠ none → s.ev = Event.default ∧ ∃ c, s.act = .decode c .words
  /-- `LF.count = len(LF.result)` always (10_state.md R28). -/
  countResult : s.lf.count = s.lf.result.length
  /-- A bounded READ never counts past `n`, and pulls no Event once it has `n` (43_lock_cycle_filter.md R145, R149). -/
  readBound : ∀ c ph, s.act = .decode (.read c) ph → c.unbounded = false →
    s.lf.count ≤ c.n ∧ (ph ≠ .entry → s.lf.count < c.n)
  /-- Every Event is in range, in progress, finalized, in a result, on EVT or handed to the host (10_state.md R11). -/
  evRange : s.ev.InRange
  finRange : ∀ e, s.fin = some e → e.InRange
  resultRange : ∀ e ∈ s.lf.result, e.InRange
  evtRange : ∀ e ∈ s.evt, e.InRange
  repliesRange : ∀ r ∈ s.replies, r.InRange
  /-- The Events of a READ in progress that are still on EVT are the last of its result (43_lock_cycle_filter.md R148),
  so that `validEvents` takes no other Event off EVT. -/
  readEvents : ∀ c ph, s.act = .decode (.read c) ph → s.evt.drop (s.evt.length - s.lf.count) <:+ s.lf.result

/-- The RawWords ED has still to pop, as far as they have arrived: `BUF`, the refill in progress, and what FS will make of
RX (40_frame_sync.md R90, 20_memory.md R42). -/
def State.pendingWords (s : State) : List RawWord :=
  s.buf ++ s.act.refillOut ++ syncWords s.fs.synced (recordsOf (s.fs.asm ++ s.rx))

/-- The Events DECODE_ONE has still to return, as far as their words have arrived (42_event_assembly.md R130). -/
def State.pendingEvents (s : State) : List Event :=
  s.fin.toList ++ (assembleFrom s.ev (s.pendingWords.map RawWord.word)).1

end Sys2Proof.Machine
end

