-- ==== Sys2Proof/Certificates/Slice0/Obligations.lean ====
section
/-! DEFINITION. The statements for the provers, from the numbered rules of spec/. -/

open Sys2Proof Sys2Proof.Machine

namespace Sys2Proof.Statements

/-- The state a word of any kind leaves, given the Event `field` its field part leaves, written out from 41_field_decode.md R109,
R110, R111 and 42_event_assembly.md R122: the source flags are ORed in, and with `T` the Event is
finalized and `EV` returns to `DEFAULT_EVENT`; nothing else of the state changes. -/
def wordResult (m : Marks) (field : Event) (s : State) : State :=
  let e := { field with source := s.ev.source ||| BitVec.ofNat 2 (2 * m.p.toNat + m.h.toNat) }
  if m.t then { s with ev := Event.default, fin := some e } else { s with ev := e }

/-- EVT once the command in progress has ended without completing (60_exceptions.md R166, 43_lock_cycle_filter.md R148): the Events the
READ in progress has placed there, its last `LF.count`, are gone as far as they were still there. -/
def evtWithoutTheRead (s : State) : List Event :=
  match s.act with
  | .decode (.read _) _ => s.evt.take (s.evt.length - s.lf.count)
  | .idle | .connecting _ | .readN _ _ | .decode .host _ => s.evt

/-- The state after TransportError (60_exceptions.md R165, R166), the bytes of the failed `RxTake` lost (R162). -/
def transportErrorState (s : State) : State :=
  { s with
    fs := { s.fs with asm := [] }
    rx := []
    st := { s.st with err := 2, busy := false, done := false }
    act := .idle
    evt := evtWithoutTheRead s
    replies := s.replies ++ [.raised .transportError] }

/-- The condition 60_exceptions.md R176 sets for a host action, row by row. -/
def accepts (a : HostAct) (s : State) : Prop :=
  match a with
  | .reset | .readStatus | .closeTransport => True
  | .connect _ => s.st.err = 0 ∧ s.st.busy = false
  | .writeCfg _ => s.st.busy = false
  | .read | .decodeOne | .readN _ => s.st.connected = true ∧ s.st.err = 0 ∧ s.st.busy = false
  | .takeEvent => s.evt ≠ []

end Sys2Proof.Statements

open Sys2Proof.Statements

/-! ## Encoding -/

/-- 30_encoding.md R62, R75: the decoder inverts the encoder on every instruction with every operand. -/
def Obligations.DecodeOfEncodeIsTheInstruction : Prop :=
  ∀ i : Instr, i.wf = true → decode (encode i) = i

/-- 30_encoding.md R62, R73: every 32-bit value is a legal word and no bit of it is dropped. -/
def Obligations.EncodeOfDecodeIsTheWord : Prop :=
  ∀ V : Word, (decode V).wf = true ∧ encode (decode V) = V

/-- 30_encoding.md R64: the kind is a match and a mask on the word, and no other bit chooses the constructor. -/
def Obligations.KindIsTheMaskedNibble : Prop :=
  ∀ (V : Word) (k : BitVec 4), (decode V).kind = k ↔ V &&& 0x0F000000#32 = k.setWidth 32 <<< 24

/-- 20_memory.md R41, 40_frame_sync.md R80: bytes 0 to 3 are the word and bytes 4 and 5 the sequence number, least
significant byte first; bytes 6 and 7 are ignored. -/
def Obligations.RecordIsLittleEndian : Prop :=
  ∀ b0 b1 b2 b3 b4 b5 b6 b7 : Byte, ∃ r, parseRecord [b0, b1, b2, b3, b4, b5, b6, b7] = .ok r ∧
    r.word.toNat = b0.toNat + 2 ^ 8 * b1.toNat + 2 ^ 16 * b2.toNat + 2 ^ 24 * b3.toNat ∧
    r.seq.toNat = b4.toNat + 2 ^ 8 * b5.toNat

/-- 30_encoding.md R61, R75: a record built from a word and a counter parses to the word and the low 16 bits of the
counter, and the records of a stream are cut one after another. -/
def Obligations.RecordRoundTripKeepsTheLowCounterHalf : Prop :=
  ∀ (V C : BitVec 32) (rest : List Byte),
    parseRecord (encodeRecord V C) = .ok { word := V, seq := C.extractLsb' 0 16 } ∧
    recordsOf (encodeRecord V C ++ rest) = { word := V, seq := C.extractLsb' 0 16 } :: recordsOf rest

/-- 30_encoding.md R60, 20_memory.md R44: bytes are a record exactly when they are 8, and other lengths are rejected by name. -/
def Obligations.OnlyEightBytesAreARecord : Prop :=
  ∀ bytes : List Byte,
    if bytes.length < 8 then parseRecord bytes = .error .shortRecord
    else if bytes.length = 8 then ∃ r, parseRecord bytes = .ok r
    else parseRecord bytes = .error .longRecord

/-- Two words that differ only in bit 28 have the same kind and the same effect, and both run. The spec marks it as its own
inference (30_encoding.md section 4, "The block ignores it"). -/
def Obligations.BitTwentyEightIsIgnored : Prop :=
  ∀ (V : Word) (s : State), (decode (V ^^^ 0x10000000#32)).kind = (decode V).kind ∧
    ∃ t, exec (decode V) s = .next t ∧ exec (decode (V ^^^ 0x10000000#32)) s = .next t

/-- Payload bits above the mask of Y and of PERIOD, and the whole payload of an unknown kind, change nothing. The spec marks it
as its own inference (30_encoding.md section 4, "are ignored and may hold anything"). -/
def Obligations.IgnoredPayloadBitsChangeNothing : Prop :=
  ∀ (m : Marks) (v w : Payload) (s : State),
    (v.extractLsb' 0 16 = w.extractLsb' 0 16 → exec (.y m v) s = exec (.y m w) s) ∧
    (v.extractLsb' 0 12 = w.extractLsb' 0 12 → exec (.period m v) s = exec (.period m w) s) ∧
    exec (.unk7 m v) s = exec (.unk7 m w) s ∧ exec (.unk8 m v) s = exec (.unk8 m w) s ∧
    exec (.unk9 m v) s = exec (.unk9 m w) s ∧ exec (.unk10 m v) s = exec (.unk10 m w) s ∧
    exec (.unk11 m v) s = exec (.unk11 m w) s ∧ exec (.unk12 m v) s = exec (.unk12 m w) s ∧
    exec (.unk13 m v) s = exec (.unk13 m w) s ∧ exec (.unk14 m v) s = exec (.unk14 m w) s ∧
    exec (.unk15 m v) s = exec (.unk15 m w) s

/-- 95_test_vectors.md S3, 2.1, 2.3 and P3: a few words written out by hand decode to what they stand for. -/
def Obligations.HandWrittenWordsDecode : Prop :=
  decode 0x02000005#32 = .tag { t := false, p := false, h := false, x := false } 5#24 ∧
  decode 0x81FFFFFD#32 = .err { t := true, p := false, h := false, x := false } 0xFFFFFD#24 ∧
  decode 0x10ABCDEF#32 = .y { t := false, p := false, h := false, x := true } 0xABCDEF#24 ∧
  decode 0xF6FFFFFF#32 = .sampleid { t := true, p := true, h := true, x := true } 0xFFFFFF#24 ∧
  decode 0x27FFFFFF#32 = .unk7 { t := false, p := false, h := true, x := false } 0xFFFFFF#24

/-- 30_encoding.md R74, R75: the word of a written form has its flags, its kind and `value & 0xFFFFFF` at their places. -/
def Obligations.WrittenFormEncodesItsFields : Prop :=
  ∀ a : WordText, a.wf = true →
    (a.encode.toNat : Int) = 2 ^ 31 * a.t.toNat + 2 ^ 30 * a.p.toNat + 2 ^ 29 * a.h.toNat + 2 ^ 28 * a.x.toNat +
      2 ^ 24 * a.kind + a.value % 2 ^ 24

/-! ## The word kinds: result, frame and completion -/

/-- 41_field_decode.md R101, in every state and for every word of kind 0. -/
def Obligations.YWritesTheLowSixteenBits : Prop :=
  ∀ (m : Marks) (v : Payload) (s : State), (encode (.y m v)).extractLsb' 24 4 = 0#4 ∧
    exec (.y m v) s = .next (wordResult m { s.ev with y := BitVec.ofNat 16 (v.toNat % 2 ^ 16) } s)

/-- 41_field_decode.md R102: `err` becomes `raw`, or `raw - 0x1000000` if `raw > 0x7FFFFF`, as a signed 32-bit number. -/
def Obligations.ErrWritesTheSignExtendedPayload : Prop :=
  ∀ (m : Marks) (v : Payload) (s : State), (encode (.err m v)).extractLsb' 24 4 = 1#4 ∧
    ∃ r : BitVec 32, r.toInt = (if v.toNat > 0x7FFFFF then (v.toNat : Int) - 0x1000000 else v.toNat) ∧
      exec (.err m v) s = .next (wordResult m { s.ev with err := r } s)

/-- 41_field_decode.md R103. -/
def Obligations.TagWritesThePayload : Prop :=
  ∀ (m : Marks) (v : Payload) (s : State), (encode (.tag m v)).extractLsb' 24 4 = 2#4 ∧
    exec (.tag m v) s = .next (wordResult m { s.ev with tag := BitVec.ofNat 32 v.toNat } s)

/-- 41_field_decode.md R104. -/
def Obligations.PeriodWritesTheLowTwelveBits : Prop :=
  ∀ (m : Marks) (v : Payload) (s : State), (encode (.period m v)).extractLsb' 24 4 = 3#4 ∧
    exec (.period m v) s = .next (wordResult m { s.ev with period := BitVec.ofNat 16 (v.toNat % 2 ^ 12) } s)

/-- 41_field_decode.md R105. -/
def Obligations.EventWritesTheEventCode : Prop :=
  ∀ (m : Marks) (v : Payload) (s : State), (encode (.event m v)).extractLsb' 24 4 = 4#4 ∧
    exec (.event m v) s = .next (wordResult m { s.ev with eventCode := v } s)

/-- 41_field_decode.md R106. -/
def Obligations.RefWritesThePayload : Prop :=
  ∀ (m : Marks) (v : Payload) (s : State), (encode (.ref m v)).extractLsb' 24 4 = 5#4 ∧
    exec (.ref m v) s = .next (wordResult m { s.ev with ref := BitVec.ofNat 32 v.toNat } s)

/-- 41_field_decode.md R107. -/
def Obligations.SampleidWritesThePayload : Prop :=
  ∀ (m : Marks) (v : Payload) (s : State), (encode (.sampleid m v)).extractLsb' 24 4 = 6#4 ∧
    exec (.sampleid m v) s = .next (wordResult m { s.ev with sampleId := BitVec.ofNat 32 v.toNat } s)

/-- 41_field_decode.md R108: the nine unknown kinds write no field; their source and terminator parts act. -/
def Obligations.UnknownKindsWriteNoField : Prop :=
  ∀ (m : Marks) (v : Payload) (s : State),
    exec (.unk7 m v) s = .next (wordResult m s.ev s) ∧ exec (.unk8 m v) s = .next (wordResult m s.ev s) ∧
    exec (.unk9 m v) s = .next (wordResult m s.ev s) ∧ exec (.unk10 m v) s = .next (wordResult m s.ev s) ∧
    exec (.unk11 m v) s = .next (wordResult m s.ev s) ∧ exec (.unk12 m v) s = .next (wordResult m s.ev s) ∧
    exec (.unk13 m v) s = .next (wordResult m s.ev s) ∧ exec (.unk14 m v) s = .next (wordResult m s.ev s) ∧
    exec (.unk15 m v) s = .next (wordResult m s.ev s) ∧
    ∀ V : Word, 7 ≤ (V.extractLsb' 24 4).toNat → exec (decode V) s = .next (wordResult (marksOf V) s.ev s)

/-- 10_state.md R13, 41_field_decode.md R109: every word runs and gives an Event `e` (in `EV`, or finalized with `T`) in
which each field but `source` is the old one unless the word is of that field's kind, `source` is the OR, and nothing but `EV` and
the finalized Event changes. -/
def Obligations.EachFieldIsWrittenByItsKindOnly : Prop :=
  ∀ (i : Instr) (s : State), ∃ e : Event,
    exec i s = .next
      (if i.marks.t then { s with ev := Event.default, fin := some e } else { s with ev := e }) ∧
    (i.kind ≠ 0 → e.y = s.ev.y) ∧ (i.kind ≠ 1 → e.err = s.ev.err) ∧ (i.kind ≠ 2 → e.tag = s.ev.tag) ∧
    (i.kind ≠ 3 → e.period = s.ev.period) ∧ (i.kind ≠ 4 → e.eventCode = s.ev.eventCode) ∧
    (i.kind ≠ 5 → e.ref = s.ev.ref) ∧ (i.kind ≠ 6 → e.sampleId = s.ev.sampleId) ∧
    e.source.getLsbD 0 = (s.ev.source.getLsbD 0 || i.marks.h) ∧
    e.source.getLsbD 1 = (s.ev.source.getLsbD 1 || i.marks.p)

/-- 41_field_decode.md R109 with 42_event_assembly.md R121, R122: two words of one Event give the union of their source
flags, and two words of two Events do not. -/
def Obligations.SourceIsTheUnionWithinOneEvent : Prop :=
  ∀ (i j : Instr) (s : State), j.marks.t = true → ∃ t u e, exec i s = .next t ∧ exec j t = .next u ∧
    u.fin = some e ∧ u.ev = Event.default ∧
    e.source = (if i.marks.t then sourceBits j.marks
      else s.ev.source ||| sourceBits i.marks ||| sourceBits j.marks)

/-! ## The step -/

/-- 42_event_assembly.md R120, R123: in the loop of DECODE_ONE, with no finalized Event waiting, a step pops the front word
of `BUF` and is `exec` of the instruction it decodes to; nothing is added around it but the pop and,
where the turn was given, the agenda. -/
def Obligations.StepRunsTheDecodedWord : Prop :=
  ∀ (s : State) (c : Caller) (w : RawWord) (rest : List RawWord),
    s.act = .decode c .words → s.fin = none → s.buf = w :: rest →
    (s.agenda = [] → step s = exec (decode w.word) { s with buf := rest }) ∧
    (∀ later, s.agenda = .block :: later →
      step s = exec (decode w.word) { s with buf := rest, agenda := later })

/-- 30_encoding.md R73, 60_exceptions.md R164, 70_reset_and_hazards.md R198: no step of any state faults or is refused: words never
trap, and waits are runs that do not end.
That a wait and a refused host action are steps is the model's reading (log 4, log 5, both DEDUCED). -/
def Obligations.EveryStepHasANextState : Prop :=
  ∀ s : State, ∃ t, step s = .next t

/-- The model's placing of a word (log 6): the next step of any state with `w` placed is `exec` of the instruction
`decodeTableWord` reads from it. -/
def Obligations.PlacedWordIsRunByTheNextStep : Prop :=
  ∀ (s : State) (w : Nat), w < 2 ^ 32 →
    decodeTableWord 32 w = some (decode (BitVec.ofNat 32 w)) ∧
    step (s.withFetchWord 32 w) = exec (decode (BitVec.ofNat 32 w))
      { s with
        st := { s.st with connected := true, err := 0, busy := true }
        act := .decode .host .words
        fin := none
        agenda := [] }

/-! ## FS: records, synchronisation, READ_N -/

/-- 40_frame_sync.md R81, R82, R83: with a whole record at hand, one turn of a READ_N (the host's, or a refill) takes it; an
unsynced FS discards the word and becomes synced on bit 31, a synced FS hands it upward unchanged.
Nothing else changes but the bytes taken and the count of records. -/
def Obligations.FrameSyncTakesOneRecord : Prop :=
  ∀ (s : State) (w : RawWord) (rec rest : List Byte), s.agenda = [] → s.fs.asm.length ≤ 7 →
    s.fs.asm ++ s.rx = rec ++ rest → parseRecord rec = .ok w →
    (∀ n out, s.act = .readN n out → out.length < n →
      step s = .next { s with
        fs := { synced := if s.fs.synced then true else w.word.getLsbD 31, asm := [] }
        rx := rest
        rxRecords := s.rxRecords + 1
        act := .readN n (if s.fs.synced then out ++ [w] else out) }) ∧
    (∀ c atEntry out, s.act = .decode c (.refill atEntry out) → out.length < 100 →
      step s = .next { s with
        fs := { synced := if s.fs.synced then true else w.word.getLsbD 31, asm := [] }
        rx := rest
        rxRecords := s.rxRecords + 1
        act := .decode c (.refill atEntry (if s.fs.synced then out ++ [w] else out)) })

/-- 60_exceptions.md R174, 10_state.md R26: with fewer than 8 bytes at hand on an open connection the block waits: the
bytes go to `FS.asm` and nothing else changes.
That a wait is such a step is the model's reading (log 4, DEDUCED). -/
def Obligations.ReadNWaitsForBytes : Prop :=
  ∀ s : State, s.agenda = [] → (s.fs.asm ++ s.rx).length < 8 → s.link = .up →
    ((∃ n out, s.act = .readN n out ∧ out.length < n) ∨
      (∃ c atEntry out, s.act = .decode c (.refill atEntry out) ∧ out.length < 100)) →
    step s = .next { s with fs := { s.fs with asm := s.fs.asm ++ s.rx }, rx := [] }

/-- 60_exceptions.md R162, R165: with fewer than 8 bytes at hand and no more to come, those bytes are lost and TransportError
ends every enclosing command: the output so far is dropped, `ST.err` is 2, `ST.busy` and `ST.done` are 0, the
host gets the exception and no result, and the Events a failed READ has placed on EVT are void and leave it (that they leave EVT
at once is the model's reading, log 29, DEDUCED). That `BUF`, `EV` and LF stay in the state as they were, though
60_exceptions.md section 4 calls them discarded, is the model's reading (log 10, DEDUCED), as is that CFG and the connection do. That
`FS.synced` keeps the value it had reached the spec marks as its own inference (40_frame_sync.md section 3, "keeps the
value it had reached"). -/
def Obligations.BrokenTransportHaltsTheBlock : Prop :=
  ∀ s : State, s.agenda = [] → (s.fs.asm ++ s.rx).length < 8 → s.link ≠ .up →
    ((∃ n out, s.act = .readN n out ∧ out.length < n) ∨
      (∃ c atEntry out, s.act = .decode c (.refill atEntry out) ∧ out.length < 100)) →
    step s = .next (transportErrorState s)

/-- 40_frame_sync.md R86: READ_N(0), issued by the host, returns the empty list, takes nothing from RX and leaves
`FS.synced` as it was.
The number of steps is the model's choice (log 2). -/
def Obligations.ReadNOfZeroTouchesNothing : Prop :=
  ∀ s : State, s.agenda = [.host (.readN 0)] → s.st.connected = true → s.st.err = 0 → s.st.busy = false →
    s.act = .idle →
    runFor 2 s = .next { s with replies := s.replies ++ [.words []], agenda := [] }

/-- From any state in which the host's READ_N(n) begins (40_frame_sync.md sections 3 and 4, whose pure form the spec marks as
its own inference), a run that returns and in which only the block moves, so that no byte arrives, hands the host
exactly the first `n` words of `sync` of the records at hand at its start, takes exactly the discarded records and those
`n`, leaves the rest of them to the next READ_N, and touches neither `BUF` nor `EV`. -/
def Obligations.ReadNReturnsTheSyncedStream : Prop :=
  ∀ (s t : State) (n k : Nat), s.agenda = [] → s.act = .readN n [] → s.st.err = 0 → 0 < n →
    s.fs.asm.length ≤ 7 → runFor k s = .next t → t.act = .idle → t.st.err = 0 →
    let records := recordsOf (s.fs.asm ++ s.rx)
    let out := (syncWords s.fs.synced records).take n
    out.length = n ∧ t.replies = s.replies ++ [.words out] ∧
    t.rxRecords = s.rxRecords + (records.length - (syncWords s.fs.synced records).length) + n ∧
    t.fs.synced = true ∧ t.fs.asm = [] ∧
    recordsOf t.rx = (syncWords s.fs.synced records).drop n ∧
    t.buf = s.buf ∧ t.ev = s.ev

/-- 40_frame_sync.md R84, 10_state.md R17: `FS.synced` goes back to 0 by RESET and by a successful CONNECT only. -/
def Obligations.SyncLatchIsMonotonic : Prop :=
  ∀ s t : State, step s = .next t → s.fs.synced = true → t.fs.synced = false →
    (∃ later, s.agenda = .host .reset :: later) ∨
    (s.act = .connecting true ∧ t.st.connected = true ∧ t.buf = [] ∧ t.ev = Event.default)

/-! ## DECODE_ONE and the refill -/

/-- 42_event_assembly.md R124, R121: at the entry of a host's DECODE_ONE, and of one that a READ still wants, fewer than 10
words in `BUF` start a refill and 10 or more do not; without a refill the loop starts from `DEFAULT_EVENT`.
That the loop starts in the step of the check is the model's choice (log 24). -/
def Obligations.EntryChecksTheLowWatermark : Prop :=
  ∀ (s : State) (c : Caller), s.agenda = [] → s.act = .decode c .entry →
    (∀ cfg, c = .read cfg → cfg.unbounded = true ∨ s.lf.count < cfg.n) →
    step s = .next (if s.buf.length < 10
      then { s with act := .decode c (.refill true []), refills := s.refills + 1 }
      else { s with act := .decode c .words, ev := Event.default })

/-- 42_event_assembly.md R125: inside an Event an empty `BUF` is refilled before the next pop. -/
def Obligations.EmptyBufferIsRefilledInsideAnEvent : Prop :=
  ∀ (s : State) (c : Caller), s.agenda = [] → s.act = .decode c .words → s.fin = none → s.buf = [] →
    step s = .next { s with act := .decode c (.refill false []), refills := s.refills + 1 }

/-- 42_event_assembly.md R126, 20_memory.md R45, R46: a refill that has its 100 words appends them to `BUF` in arrival order in
one step, and the loop of DECODE_ONE goes on, from `DEFAULT_EVENT` after the entry check.
That the loop starts in the step of the append is the model's choice (log 24). -/
def Obligations.RefillAppendsItsBatchInOneStep : Prop :=
  ∀ (s : State) (c : Caller) (atEntry : Bool) (out : List RawWord), s.agenda = [] →
    s.act = .decode c (.refill atEntry out) → 100 ≤ out.length →
    step s = .next { s with
      buf := s.buf ++ out
      act := .decode c .words
      ev := if atEntry then Event.default else s.ev }

/-- From a state that holds a whole batch to the start of the next refill, at least 91 words are popped, in order. The spec
marks it as its own inference (42_event_assembly.md section 3, "at least ... 91 words are popped"). -/
def Obligations.NinetyOneWordsLieBetweenRefills : Prop :=
  ∀ (s t : State) (k : Nat) (c : Caller) (atEntry : Bool), s.Inv → s.agenda = [] → 100 ≤ s.buf.length →
    runFor k s = .next t → t.refills = s.refills + 1 → t.act = .decode c (.refill atEntry []) →
    ∃ popped, s.buf = popped ++ t.buf ∧ 91 ≤ popped.length

/-- The occupancy of `BUF` never exceeds 109, whatever host and transport do. The spec marks it as its own inference (10_state.md
section 7, "Occupancy bound"). -/
def Obligations.BufferNeverExceedsItsDepth : Prop :=
  ∀ (s t : State) (k : Nat), s.Inv → runFor k s = .next t → t.buf.length ≤ 109

/-- 42_event_assembly.md R120, R122, R123: DECODE_ONE of the host, entered with 10 words or more in `BUF` of which the
first with bit 31 set follows the words `ws`, returns the Event of exactly those words after `ws.length + 3`
steps, takes nothing from RX, and leaves the later words.
The number of steps is the model's choice (log 2). -/
def Obligations.DecodeOneReturnsTheNextEvent : Prop :=
  ∀ (s : State) (ws rest : List RawWord) (w : RawWord), s.agenda = [] → s.act = .decode .host .entry →
    s.fin = none → s.buf = ws ++ w :: rest → 10 ≤ s.buf.length →
    (∀ r ∈ ws, r.word.getLsbD 31 = false) → w.word.getLsbD 31 = true →
    runFor (ws.length + 3) s = .next { s with
      buf := rest
      ev := Event.default
      st := { s.st with busy := false }
      act := .idle
      replies := s.replies ++
        [.event (wordEvent w.word (ws.foldl (fun e r => wordEvent r.word e) Event.default))] }

/-! ## LF and READ -/

/-- 43_lock_cycle_filter.md R140, R141, R142, R143, R150: with a finalized Event before it, a READ's turn arms the latch on no
trigger or the trigger code, and then, if the latch is set and the source set matches, appends the Event,
counts it and places it on EVT. -/
def Obligations.FilterArmsThenAppends : Prop :=
  ∀ (s : State) (c : Cfg) (e : Event), s.agenda = [] → s.act = .decode (.read c) .words → s.fin = some e →
    ∃ armed passed : Bool,
      (armed = true ↔ s.lf.logging = true ∨ c.trigEn = false ∨ e.eventCode = c.trigCode) ∧
      (passed = true ↔ armed = true ∧ (c.srcEn = false ∨ e.source = c.srcVal)) ∧
      step s = .next { s with
        fin := none
        act := .decode (.read c) .entry
        lf := if passed
          then { logging := armed, count := s.lf.count + 1, result := s.lf.result ++ [e] }
          else { s.lf with logging := armed }
        evt := if passed then s.evt ++ [e] else s.evt }

/-- 43_lock_cycle_filter.md R145, R144, 20_memory.md R51: an accepted READ samples `CFG`, holds `ST.busy`, clears `ST.done` and
clears the latch, the count and the result; nothing else changes. -/
def Obligations.ReadStartsWithAClearedFilter : Prop :=
  ∀ (s : State) (later : List Turn), s.agenda = .host .read :: later → s.st.connected = true → s.st.err = 0 →
    s.st.busy = false →
    step s = .next { s with
      agenda := later
      act := .decode (.read s.cfg) .entry
      st := { s.st with busy := true, done := false }
      lf := { logging := false, count := 0, result := [] } }

/-- 43_lock_cycle_filter.md R145, R148, R149: a bounded READ that has its `n` Events completes without pulling another: `ST.done`
is 1, `ST.busy` is 0, the host gets the result list. -/
def Obligations.ReadCompletesByCount : Prop :=
  ∀ (s : State) (c : Cfg), s.agenda = [] → s.act = .decode (.read c) .entry → c.unbounded = false →
    c.n ≤ s.lf.count →
    step s = .next { s with
      act := .idle
      st := { s.st with done := true, busy := false }
      replies := s.replies ++ [.events s.lf.result] }

/-- 43_lock_cycle_filter.md R146: READ with `n = 0` returns the empty list at once and takes nothing from `BUF` or RX.
The number of steps is the model's choice (log 2). -/
def Obligations.ReadOfZeroReturnsTheEmptyList : Prop :=
  ∀ s : State, s.agenda = [.host .read] → s.st.connected = true → s.st.err = 0 → s.st.busy = false →
    s.cfg.n = 0 → s.cfg.unbounded = false →
    runFor 2 s = .next { s with
      agenda := []
      act := .idle
      st := { s.st with done := true, busy := false }
      lf := { logging := false, count := 0, result := [] }
      replies := s.replies ++ [.events []] }

/-- 43_lock_cycle_filter.md R147: a step never completes an unbounded READ: it goes on, or ends by an exception, or by RESET, and
`ST.done` stays 0. -/
def Obligations.UnboundedReadEndsOnlyByExceptionOrReset : Prop :=
  ∀ (s t : State) (c : Cfg) (ph : Phase), s.Inv → s.act = .decode (.read c) ph → c.unbounded = true →
    step s = .next t → t.st.done = false ∧
    ((∃ ph', t.act = .decode (.read c) ph') ∨
      (t.act = .idle ∧ t.st.err = 2 ∧ t.replies = s.replies ++ [.raised .transportError]) ∨
      (t.act = .idle ∧ ∃ later, s.agenda = .host .reset :: later))

/-- 43_lock_cycle_filter.md R144, 10_state.md R18: `LF.logging` goes back to 0 by the start of a READ and by RESET only. -/
def Obligations.TriggerLatchIsMonotonic : Prop :=
  ∀ s t : State, step s = .next t → s.lf.logging = true → t.lf.logging = false →
    (∃ later, s.agenda = .host .reset :: later) ∨
    ((∃ later, s.agenda = .host .read :: later) ∧ t.act = .decode (.read s.cfg) .entry)

/-- 20_memory.md R51, 10_state.md R21: a READ keeps the `CFG` it sampled at its start, and no host write changes `CFG` meanwhile. -/
def Obligations.CfgIsSampledOnce : Prop :=
  ∀ (s t : State) (c c' : Cfg) (ph ph' : Phase), s.Inv → s.act = .decode (.read c) ph → step s = .next t →
    t.act = .decode (.read c') ph' → c' = c ∧ t.cfg = s.cfg

/-- The step behind the pure forms, which the spec marks as its own inferences (40_frame_sync.md section 4, 42_event_assembly.md
section 3, 43_lock_cycle_filter.md section 3): one turn of the block inside a READ, at
whatever point of its refills and Events it stands, keeps the sum of what the READ has appended and of what the filter will
still pass of the Events that `BUF`, the refill in progress and RX hold; and EVT grows by exactly what is appended. -/
def Obligations.ReadConservesTheEventStream : Prop :=
  ∀ (s t : State) (c : Cfg) (ph : Phase), s.Inv → s.agenda = [] → s.act = .decode (.read c) ph →
    step s = .next t → t.st.err = 0 →
    t.lf.result ++ filterFrom c t.lf.logging t.pendingEvents =
      s.lf.result ++ filterFrom c s.lf.logging s.pendingEvents ∧
    ∃ new, t.lf.result = s.lf.result ++ new ∧ t.evt = s.evt ++ new

/-- 43_lock_cycle_filter.md section 3 (an inference of the spec: "A bounded READ that completes returns the first `n`
elements") with the pure forms of FS and ED: from the start of a bounded READ in any state of the invariant, a run that
completes and in which only the block moves, so that no byte arrives, returns the first `n` Events of
`lf(c, assemble(BUF ++ sync(stream)))`, `n` of them, on EVT in the same order; the stream here is the bytes at hand at
the start. -/
def Obligations.ReadReturnsTheFirstFilteredEvents : Prop :=
  ∀ (s t : State) (c : Cfg) (k : Nat), s.Inv → s.agenda = [] → s.act = .decode (.read c) .entry →
    s.lf = { logging := false, count := 0, result := [] } → c.unbounded = false →
    runFor k s = .next t → t.st.done = true →
    let es := (assemble ((s.buf ++ syncWords s.fs.synced (recordsOf (s.fs.asm ++ s.rx))).map RawWord.word)).1
    t.lf.result = (filterEvents c es).take c.n ∧ t.lf.result.length = c.n ∧
    t.evt = s.evt ++ t.lf.result ∧ t.replies = s.replies ++ [.events t.lf.result]

/-! ## Exceptions, reset -/

/-- An accepted CONNECT opens a fresh connection, or, where the transport cannot reach the endpoint, raises ConnectionError
(40_frame_sync.md section 3, 60_exceptions.md sections 1 and 4). The model's own, which no rule says: a CONNECT that fails leaves an
old connection and its bytes as they were, and one that succeeds keeps LF and `ST.done` (log 19, DEDUCED); the
endpoints that can be reached are a list, looked up when the command is issued (log 9, DESIGN CHOICE); EV and BUF stay in the
halted state (log 10, DEDUCED); CONNECT takes two steps (log 18, DEDUCED; log 2, DESIGN CHOICE). -/
def Obligations.ConnectOpensAFreshConnectionOrRaises : Prop :=
  ∀ (s : State) (ep : Endpoint), s.agenda = [.host (.connect ep)] → s.st.err = 0 → s.st.busy = false →
    runFor 2 s = .next (if ep ∈ s.reachable
      then { s with
        fs := { synced := false, asm := [] }
        buf := []
        ev := Event.default
        st := { s.st with connected := true, busy := false }
        act := .idle
        fin := none
        rx := []
        link := .up
        rxRecords := 0
        refills := 0
        replies := s.replies ++ [.connected]
        agenda := [] }
      else { s with
        st := { s.st with err := 1, busy := false, done := false }
        act := .idle
        replies := s.replies ++ [.raised .connectionError]
        agenda := [] })

/-- 60_exceptions.md R166, R167: a halted block accepts no command but RESET: FS, `BUF`, `EV`, LF and `ST` stay as they are at
every other step (a `CFG` write is no command, log 17); RESET clears the error. That `BUF`, `EV` and LF stay, though R166 calls
them discarded, is the model's reading (log 10, DEDUCED). -/
def Obligations.HaltedBlockStaysHaltedUntilReset : Prop :=
  ∀ s t : State, s.Inv → s.st.err ≠ 0 → step s = .next t →
    ((∃ later, s.agenda = .host .reset :: later) → t.st.err = 0 ∧ t.st.connected = false ∧ t.act = .idle) ∧
    ((∀ later, s.agenda ≠ .host .reset :: later) →
      t.st = s.st ∧ t.act = .idle ∧ t.fs = s.fs ∧ t.buf = s.buf ∧ t.ev = s.ev ∧ t.lf = s.lf)

/-- 70_reset_and_hazards.md R190, 10_state.md R29: RESET abandons any command, closes the connection and gives every state element its
reset value; power-up leaves the block in the same state.
`act` and `link` are the model's names for the command and the connection (log 3, log 12). -/
def Obligations.ResetGivesTheResetValues : Prop :=
  (∀ (s : State) (later : List Turn), s.agenda = .host .reset :: later → ∃ t, step s = .next t ∧
    t.fs = { synced := false, asm := [] } ∧ t.buf = [] ∧ t.ev = Event.default ∧
    t.lf = { logging := false, count := 0, result := [] } ∧
    t.cfg = { trigEn := false, trigCode := 0, srcEn := false, srcVal := 0, n := 0, unbounded := false } ∧
    t.st = { connected := false, err := 0, done := false, busy := false } ∧ t.act = .idle ∧ t.link = .absent) ∧
  State.reset.fs = { synced := false, asm := [] } ∧ State.reset.buf = [] ∧ State.reset.ev = Event.default ∧
  State.reset.lf = { logging := false, count := 0, result := [] } ∧
  State.reset.cfg = { trigEn := false, trigCode := 0, srcEn := false, srcVal := 0, n := 0, unbounded := false } ∧
  State.reset.st = { connected := false, err := 0, done := false, busy := false }

/-- The model's choice of what lies outside RESET (log 13, DESIGN CHOICE; log 29, DEDUCED): EVT but for the Events of a READ it abandons, what the host was handed, the reachable endpoints and the
turns to come stay; all the rest is the state after power-up. -/
def Obligations.ResetKeepsTheEnvironment : Prop :=
  ∀ (s : State) (later : List Turn), s.agenda = .host .reset :: later →
    step s = .next { State.reset with
      evt := evtWithoutTheRead s, replies := s.replies, reachable := s.reachable, agenda := later }

/-- 60_exceptions.md R163: DesyncTimeout is never raised: no step records code 3 and no step hands it to the host. -/
def Obligations.DesyncTimeoutIsNeverRaised : Prop :=
  ∀ s t : State, step s = .next t → (t.st.err = 3 → s.st.err = 3) ∧
    (.raised .desyncTimeout ∈ t.replies → .raised .desyncTimeout ∈ s.replies)

/-! ## The host interface and the channels -/

/-- 60_exceptions.md R176: a host action whose condition does not hold has no effect and no result.
That it is a step that takes the turn off the agenda is the model's reading (log 5, DEDUCED). -/
def Obligations.RefusedHostActionsHaveNoEffect : Prop :=
  ∀ (s : State) (a : HostAct) (later : List Turn), s.agenda = .host a :: later → ¬ accepts a s →
    step s = .next { s with agenda := later }

/-- 10_state.md R20, R21, 60_exceptions.md R176: while no command is in progress a write of a `CFG` register takes effect on that
register alone.
That this holds in the halted state too is the model's reading (log 17, DEDUCED). -/
def Obligations.CfgWritesTakeEffectWhenIdle : Prop :=
  ∀ (s : State) (later : List Turn), s.st.busy = false →
    (∀ b, s.agenda = .host (.writeCfg (.trigEn b)) :: later →
      step s = .next { s with agenda := later, cfg := { s.cfg with trigEn := b } }) ∧
    (∀ k, s.agenda = .host (.writeCfg (.trigCode k)) :: later →
      step s = .next { s with agenda := later, cfg := { s.cfg with trigCode := k } }) ∧
    (∀ b, s.agenda = .host (.writeCfg (.srcEn b)) :: later →
      step s = .next { s with agenda := later, cfg := { s.cfg with srcEn := b } }) ∧
    (∀ v, s.agenda = .host (.writeCfg (.srcVal v)) :: later →
      step s = .next { s with agenda := later, cfg := { s.cfg with srcVal := v } }) ∧
    (∀ k, s.agenda = .host (.writeCfg (.n k)) :: later →
      step s = .next { s with agenda := later, cfg := { s.cfg with n := k } }) ∧
    (∀ b, s.agenda = .host (.writeCfg (.unbounded b)) :: later →
      step s = .next { s with agenda := later, cfg := { s.cfg with unbounded := b } })

/-- 60_exceptions.md R176, 90_conflicts.md C13: an accepted DECODE_ONE or READ_N holds `ST.busy` from its start and changes nothing else
but the model's control state. -/
def Obligations.DirectCommandsHoldBusy : Prop :=
  ∀ (s : State) (later : List Turn), s.st.connected = true → s.st.err = 0 → s.st.busy = false →
    (s.agenda = .host .decodeOne :: later →
      step s = .next { s with
        agenda := later, act := .decode .host .entry, st := { s.st with busy := true } }) ∧
    (∀ n, s.agenda = .host (.readN n) :: later →
      step s = .next { s with agenda := later, act := .readN n [], st := { s.st with busy := true } })

/-- 20_memory.md R52, 00_scope.md R7: while no command is in progress a turn of the block does nothing, so that it takes
nothing from RX. -/
def Obligations.IdleBlockTakesNothing : Prop :=
  ∀ s : State, s.Inv → s.st.busy = false →
    (s.agenda = [] → step s = .next s) ∧
    (∀ later, s.agenda = .block :: later → step s = .next { s with agenda := later })

/-- 10_state.md R21, 60_exceptions.md R173, R176: the host may read `ST`, `FS.synced` and `LF.logging` always; it gets the current
values and nothing changes.
That the three are read together in one turn is the model's choice (log 23). -/
def Obligations.StatusReadsChangeNothing : Prop :=
  ∀ (s : State) (later : List Turn), s.agenda = .host .readStatus :: later →
    step s = .next { s with
      agenda := later, replies := s.replies ++ [.status s.st s.fs.synced s.lf.logging] }

/-- A step leaves EVT as it is, or appends at its back the Event that LF has just been given by a READ, or takes from its front the
Event the host asked for (20_memory.md section 5), or ends a READ by TransportError or RESET and takes off EVT the void Events of
that READ, its last `LF.count`, as far as they are there (60_exceptions.md section 4, 93_implementation_defined.md U26). That
they leave EVT in that step, at RESET too, is the model's reading (log 29, DEDUCED), and that RESET leaves the other Events is
its choice (log 13, DESIGN CHOICE). -/
def Obligations.EvtIsAQueueOfCopies : Prop :=
  ∀ s t : State, step s = .next t →
    t.evt = s.evt ∨
    (∃ e c, s.fin = some e ∧ s.act = .decode (.read c) .words ∧ t.evt = s.evt ++ [e]) ∨
    (∃ e later, s.agenda = .host .takeEvent :: later ∧ s.evt = e :: t.evt ∧
      t.replies = s.replies ++ [.taken e]) ∨
    ((∃ c ph, s.act = .decode (.read c) ph) ∧ t.act = .idle ∧
      (t.st.err = 2 ∨ ∃ later, s.agenda = .host .reset :: later) ∧
      t.evt = s.evt.take (s.evt.length - s.lf.count))

/-- Closing the transport out-of-band makes the pending `RxTake` of any command raise TransportError (60_exceptions.md section 10).
That it does so even when whole records had arrived, and that their bytes are lost, is the model's reading (log 8, DEDUCED),
and that `BUF`, `EV` and LF stay is too (log 10, DEDUCED), as is that the void Events of a READ leave EVT in that step (log 29,
DEDUCED). The number of steps is the model's choice (log 2). -/
def Obligations.ClosingTheTransportRaisesAtThePendingRxTake : Prop :=
  ∀ s : State, s.agenda = [.host .closeTransport] → s.link ≠ .absent → s.fs.asm.length ≤ 7 →
    ((∃ n out, s.act = .readN n out ∧ out.length < n) ∨
      (∃ c atEntry out, s.act = .decode c (.refill atEntry out) ∧ out.length < 100)) →
    runFor 2 s = .next { transportErrorState s with link := .ended, agenda := [] }

/-- 20_memory.md R40, 60_exceptions.md R161, R162 (log 8, log 9): the transport changes the channel and the reachable endpoints only:
bytes arrive at the end of RX on an open connection, a close leaves the bytes that arrived, a failure loses them. -/
def Obligations.TransportTurnsChangeTheChannelOnly : Prop :=
  ∀ (s : State) (later : List Turn),
    (∀ bytes, s.agenda = .transport (.deliver bytes) :: later →
      step s = .next { s with agenda := later, rx := if s.link = .up then s.rx ++ bytes else s.rx }) ∧
    (s.agenda = .transport .close :: later →
      step s = .next { s with agenda := later, link := if s.link = .up then .ended else s.link }) ∧
    (s.agenda = .transport .fail :: later → s.link ≠ .absent →
      step s = .next { s with agenda := later, link := .ended, rx := [] }) ∧
    (∀ eps, s.agenda = .transport (.setReachable eps) :: later →
      step s = .next { s with agenda := later, reachable := eps })

/-! ## The invariant -/

/-- The invariant holds at reset (10_state.md R29).
Its parts on `act`, `fin` and `link` speak of the model's own fields (log 3, log 12). -/
def Obligations.InvariantHoldsAtReset : Prop := State.reset.Inv

/-- Every step of the block, the host or the transport keeps the invariant (10_state.md R11, R14, R19, R24, R26, R28, 60_exceptions.md
R163, R166, 43_lock_cycle_filter.md R145, R148).
Its parts on `act`, `fin` and `link` speak of the model's own fields (log 3, log 8, log 12). -/
def Obligations.EveryStepKeepsTheInvariant : Prop :=
  ∀ s t : State, s.Inv → step s = .next t → t.Inv

/-! ## The step lemma of READ_N -/

/-- The step behind the pure form of FS, which the spec marks as its own inference (40_frame_sync.md section 4): one turn of the
block inside READ_N(n) keeps what it has collected followed by `sync` of what FS still holds, or returns exactly what it has
collected and leaves FS and RX, or ends by TransportError with fewer than 8 bytes at hand; and one turn of a refill keeps `BUF`
followed by the words still to come, or ends so. -/
def Obligations.ReadNTurnConservesTheSyncedStream : Prop :=
  ∀ s t : State, s.agenda = [] → s.fs.asm.length ≤ 7 → step s = .next t →
    (∀ n out, s.act = .readN n out →
      (∃ out', t.act = .readN n out' ∧
        out' ++ syncWords t.fs.synced (recordsOf (t.fs.asm ++ t.rx)) =
          out ++ syncWords s.fs.synced (recordsOf (s.fs.asm ++ s.rx))) ∨
      (n ≤ out.length ∧ t.act = .idle ∧ t.replies = s.replies ++ [.words out] ∧ t.fs = s.fs ∧ t.rx = s.rx) ∨
      ((s.fs.asm ++ s.rx).length < 8 ∧ t.act = .idle ∧ t.st.err = 2)) ∧
    (∀ c atEntry out, s.act = .decode c (.refill atEntry out) →
      ((∃ ph, t.act = .decode c ph) ∧ t.pendingWords = s.pendingWords) ∨
      ((s.fs.asm ++ s.rx).length < 8 ∧ t.act = .idle ∧ t.st.err = 2))
end

