-- ==== Sys2Proof/Laws/State.lean ====
section
/-! SUPPORT. One lemma per field per state update, each by definition, so that no proof unfolds a record update. -/

namespace Sys2Proof.Laws

open Sys2Proof.Machine

variable (s : State)

@[simp] theorem reply_fs (r : Reply) : (reply r s).fs = s.fs := rfl
@[simp] theorem reply_buf (r : Reply) : (reply r s).buf = s.buf := rfl
@[simp] theorem reply_ev (r : Reply) : (reply r s).ev = s.ev := rfl
@[simp] theorem reply_lf (r : Reply) : (reply r s).lf = s.lf := rfl
@[simp] theorem reply_cfg (r : Reply) : (reply r s).cfg = s.cfg := rfl
@[simp] theorem reply_st (r : Reply) : (reply r s).st = s.st := rfl
@[simp] theorem reply_act (r : Reply) : (reply r s).act = s.act := rfl
@[simp] theorem reply_fin (r : Reply) : (reply r s).fin = s.fin := rfl
@[simp] theorem reply_rx (r : Reply) : (reply r s).rx = s.rx := rfl
@[simp] theorem reply_link (r : Reply) : (reply r s).link = s.link := rfl
@[simp] theorem reply_reachable (r : Reply) : (reply r s).reachable = s.reachable := rfl
@[simp] theorem reply_evt (r : Reply) : (reply r s).evt = s.evt := rfl
@[simp] theorem reply_replies (r : Reply) : (reply r s).replies = s.replies ++ [r] := rfl
@[simp] theorem reply_rxRecords (r : Reply) : (reply r s).rxRecords = s.rxRecords := rfl
@[simp] theorem reply_refills (r : Reply) : (reply r s).refills = s.refills := rfl
@[simp] theorem reply_agenda (r : Reply) : (reply r s).agenda = s.agenda := rfl

@[simp] theorem fifoPush_fs (ws : List RawWord) : (fifoPush ws s).fs = s.fs := rfl
@[simp] theorem fifoPush_buf (ws : List RawWord) : (fifoPush ws s).buf = s.buf ++ ws := rfl
@[simp] theorem fifoPush_ev (ws : List RawWord) : (fifoPush ws s).ev = s.ev := rfl
@[simp] theorem fifoPush_lf (ws : List RawWord) : (fifoPush ws s).lf = s.lf := rfl
@[simp] theorem fifoPush_cfg (ws : List RawWord) : (fifoPush ws s).cfg = s.cfg := rfl
@[simp] theorem fifoPush_st (ws : List RawWord) : (fifoPush ws s).st = s.st := rfl
@[simp] theorem fifoPush_act (ws : List RawWord) : (fifoPush ws s).act = s.act := rfl
@[simp] theorem fifoPush_fin (ws : List RawWord) : (fifoPush ws s).fin = s.fin := rfl
@[simp] theorem fifoPush_rx (ws : List RawWord) : (fifoPush ws s).rx = s.rx := rfl
@[simp] theorem fifoPush_link (ws : List RawWord) : (fifoPush ws s).link = s.link := rfl
@[simp] theorem fifoPush_reachable (ws : List RawWord) : (fifoPush ws s).reachable = s.reachable := rfl
@[simp] theorem fifoPush_evt (ws : List RawWord) : (fifoPush ws s).evt = s.evt := rfl
@[simp] theorem fifoPush_replies (ws : List RawWord) : (fifoPush ws s).replies = s.replies := rfl
@[simp] theorem fifoPush_rxRecords (ws : List RawWord) : (fifoPush ws s).rxRecords = s.rxRecords := rfl
@[simp] theorem fifoPush_refills (ws : List RawWord) : (fifoPush ws s).refills = s.refills := rfl
@[simp] theorem fifoPush_agenda (ws : List RawWord) : (fifoPush ws s).agenda = s.agenda := rfl

@[simp] theorem evtEmit_fs (e : Event) : (evtEmit e s).fs = s.fs := rfl
@[simp] theorem evtEmit_buf (e : Event) : (evtEmit e s).buf = s.buf := rfl
@[simp] theorem evtEmit_ev (e : Event) : (evtEmit e s).ev = s.ev := rfl
@[simp] theorem evtEmit_lf (e : Event) : (evtEmit e s).lf = s.lf := rfl
@[simp] theorem evtEmit_cfg (e : Event) : (evtEmit e s).cfg = s.cfg := rfl
@[simp] theorem evtEmit_st (e : Event) : (evtEmit e s).st = s.st := rfl
@[simp] theorem evtEmit_act (e : Event) : (evtEmit e s).act = s.act := rfl
@[simp] theorem evtEmit_fin (e : Event) : (evtEmit e s).fin = s.fin := rfl
@[simp] theorem evtEmit_rx (e : Event) : (evtEmit e s).rx = s.rx := rfl
@[simp] theorem evtEmit_link (e : Event) : (evtEmit e s).link = s.link := rfl
@[simp] theorem evtEmit_reachable (e : Event) : (evtEmit e s).reachable = s.reachable := rfl
@[simp] theorem evtEmit_evt (e : Event) : (evtEmit e s).evt = s.evt ++ [e] := rfl
@[simp] theorem evtEmit_replies (e : Event) : (evtEmit e s).replies = s.replies := rfl
@[simp] theorem evtEmit_rxRecords (e : Event) : (evtEmit e s).rxRecords = s.rxRecords := rfl
@[simp] theorem evtEmit_refills (e : Event) : (evtEmit e s).refills = s.refills := rfl
@[simp] theorem evtEmit_agenda (e : Event) : (evtEmit e s).agenda = s.agenda := rfl

@[simp] theorem raise_fs (x : Exc) : (raise x s).fs = s.fs := rfl
@[simp] theorem raise_buf (x : Exc) : (raise x s).buf = s.buf := rfl
@[simp] theorem raise_ev (x : Exc) : (raise x s).ev = s.ev := rfl
@[simp] theorem raise_lf (x : Exc) : (raise x s).lf = s.lf := rfl
@[simp] theorem raise_cfg (x : Exc) : (raise x s).cfg = s.cfg := rfl
@[simp] theorem raise_st (x : Exc) : (raise x s).st = { s.st with err := x.code, busy := false, done := false } := rfl
@[simp] theorem raise_act (x : Exc) : (raise x s).act = .idle := rfl
@[simp] theorem raise_fin (x : Exc) : (raise x s).fin = s.fin := rfl
@[simp] theorem raise_rx (x : Exc) : (raise x s).rx = s.rx := rfl
@[simp] theorem raise_link (x : Exc) : (raise x s).link = s.link := rfl
@[simp] theorem raise_reachable (x : Exc) : (raise x s).reachable = s.reachable := rfl
@[simp] theorem raise_evt (x : Exc) : (raise x s).evt = validEvents s := rfl
@[simp] theorem raise_replies (x : Exc) : (raise x s).replies = s.replies ++ [.raised x] := rfl
@[simp] theorem raise_rxRecords (x : Exc) : (raise x s).rxRecords = s.rxRecords := rfl
@[simp] theorem raise_refills (x : Exc) : (raise x s).refills = s.refills := rfl
@[simp] theorem raise_agenda (x : Exc) : (raise x s).agenda = s.agenda := rfl

@[simp] theorem commandReturn_fs (r : Reply) : (commandReturn r s).fs = s.fs := rfl
@[simp] theorem commandReturn_buf (r : Reply) : (commandReturn r s).buf = s.buf := rfl
@[simp] theorem commandReturn_ev (r : Reply) : (commandReturn r s).ev = s.ev := rfl
@[simp] theorem commandReturn_lf (r : Reply) : (commandReturn r s).lf = s.lf := rfl
@[simp] theorem commandReturn_cfg (r : Reply) : (commandReturn r s).cfg = s.cfg := rfl
@[simp] theorem commandReturn_st (r : Reply) : (commandReturn r s).st = { s.st with busy := false } := rfl
@[simp] theorem commandReturn_act (r : Reply) : (commandReturn r s).act = .idle := rfl
@[simp] theorem commandReturn_fin (r : Reply) : (commandReturn r s).fin = s.fin := rfl
@[simp] theorem commandReturn_rx (r : Reply) : (commandReturn r s).rx = s.rx := rfl
@[simp] theorem commandReturn_link (r : Reply) : (commandReturn r s).link = s.link := rfl
@[simp] theorem commandReturn_reachable (r : Reply) : (commandReturn r s).reachable = s.reachable := rfl
@[simp] theorem commandReturn_evt (r : Reply) : (commandReturn r s).evt = s.evt := rfl
@[simp] theorem commandReturn_replies (r : Reply) : (commandReturn r s).replies = s.replies ++ [r] := rfl
@[simp] theorem commandReturn_rxRecords (r : Reply) : (commandReturn r s).rxRecords = s.rxRecords := rfl
@[simp] theorem commandReturn_refills (r : Reply) : (commandReturn r s).refills = s.refills := rfl
@[simp] theorem commandReturn_agenda (r : Reply) : (commandReturn r s).agenda = s.agenda := rfl

@[simp] theorem fsWordStep_fs (w : RawWord) : (fsWordStep w s).fs = { s.fs with synced := syncedAfter s.fs.synced w.word } := rfl
@[simp] theorem fsWordStep_buf (w : RawWord) : (fsWordStep w s).buf = s.buf := rfl
@[simp] theorem fsWordStep_ev (w : RawWord) : (fsWordStep w s).ev = s.ev := rfl
@[simp] theorem fsWordStep_lf (w : RawWord) : (fsWordStep w s).lf = s.lf := rfl
@[simp] theorem fsWordStep_cfg (w : RawWord) : (fsWordStep w s).cfg = s.cfg := rfl
@[simp] theorem fsWordStep_st (w : RawWord) : (fsWordStep w s).st = s.st := rfl
@[simp] theorem fsWordStep_act (w : RawWord) : (fsWordStep w s).act = s.act := rfl
@[simp] theorem fsWordStep_fin (w : RawWord) : (fsWordStep w s).fin = s.fin := rfl
@[simp] theorem fsWordStep_rx (w : RawWord) : (fsWordStep w s).rx = s.rx := rfl
@[simp] theorem fsWordStep_link (w : RawWord) : (fsWordStep w s).link = s.link := rfl
@[simp] theorem fsWordStep_reachable (w : RawWord) : (fsWordStep w s).reachable = s.reachable := rfl
@[simp] theorem fsWordStep_evt (w : RawWord) : (fsWordStep w s).evt = s.evt := rfl
@[simp] theorem fsWordStep_replies (w : RawWord) : (fsWordStep w s).replies = s.replies := rfl
@[simp] theorem fsWordStep_rxRecords (w : RawWord) : (fsWordStep w s).rxRecords = s.rxRecords := rfl
@[simp] theorem fsWordStep_refills (w : RawWord) : (fsWordStep w s).refills = s.refills := rfl
@[simp] theorem fsWordStep_agenda (w : RawWord) : (fsWordStep w s).agenda = s.agenda := rfl

@[simp] theorem finishWord_fs (m : Marks) (e : Event) : (finishWord m e s).fs = s.fs := rfl
@[simp] theorem finishWord_buf (m : Marks) (e : Event) : (finishWord m e s).buf = s.buf := rfl
@[simp] theorem finishWord_ev (m : Marks) (e : Event) : (finishWord m e s).ev = if m.t then Event.default else sourcePart m e := rfl
@[simp] theorem finishWord_lf (m : Marks) (e : Event) : (finishWord m e s).lf = s.lf := rfl
@[simp] theorem finishWord_cfg (m : Marks) (e : Event) : (finishWord m e s).cfg = s.cfg := rfl
@[simp] theorem finishWord_st (m : Marks) (e : Event) : (finishWord m e s).st = s.st := rfl
@[simp] theorem finishWord_act (m : Marks) (e : Event) : (finishWord m e s).act = s.act := rfl
@[simp] theorem finishWord_fin (m : Marks) (e : Event) : (finishWord m e s).fin = if m.t then some (sourcePart m e) else s.fin := rfl
@[simp] theorem finishWord_rx (m : Marks) (e : Event) : (finishWord m e s).rx = s.rx := rfl
@[simp] theorem finishWord_link (m : Marks) (e : Event) : (finishWord m e s).link = s.link := rfl
@[simp] theorem finishWord_reachable (m : Marks) (e : Event) : (finishWord m e s).reachable = s.reachable := rfl
@[simp] theorem finishWord_evt (m : Marks) (e : Event) : (finishWord m e s).evt = s.evt := rfl
@[simp] theorem finishWord_replies (m : Marks) (e : Event) : (finishWord m e s).replies = s.replies := rfl
@[simp] theorem finishWord_rxRecords (m : Marks) (e : Event) : (finishWord m e s).rxRecords = s.rxRecords := rfl
@[simp] theorem finishWord_refills (m : Marks) (e : Event) : (finishWord m e s).refills = s.refills := rfl
@[simp] theorem finishWord_agenda (m : Marks) (e : Event) : (finishWord m e s).agenda = s.agenda := rfl

@[simp] theorem readComplete_fs : (readComplete s).fs = s.fs := rfl
@[simp] theorem readComplete_buf : (readComplete s).buf = s.buf := rfl
@[simp] theorem readComplete_ev : (readComplete s).ev = s.ev := rfl
@[simp] theorem readComplete_lf : (readComplete s).lf = s.lf := rfl
@[simp] theorem readComplete_cfg : (readComplete s).cfg = s.cfg := rfl
@[simp] theorem readComplete_st : (readComplete s).st = { s.st with done := true, busy := false } := rfl
@[simp] theorem readComplete_act : (readComplete s).act = .idle := rfl
@[simp] theorem readComplete_fin : (readComplete s).fin = s.fin := rfl
@[simp] theorem readComplete_rx : (readComplete s).rx = s.rx := rfl
@[simp] theorem readComplete_link : (readComplete s).link = s.link := rfl
@[simp] theorem readComplete_reachable : (readComplete s).reachable = s.reachable := rfl
@[simp] theorem readComplete_evt : (readComplete s).evt = s.evt := rfl
@[simp] theorem readComplete_replies : (readComplete s).replies = s.replies ++ [.events s.lf.result] := rfl
@[simp] theorem readComplete_rxRecords : (readComplete s).rxRecords = s.rxRecords := rfl
@[simp] theorem readComplete_refills : (readComplete s).refills = s.refills := rfl
@[simp] theorem readComplete_agenda : (readComplete s).agenda = s.agenda := rfl

@[simp] theorem startRefill_fs (c : Caller) (b : Bool) : (startRefill c b s).fs = s.fs := rfl
@[simp] theorem startRefill_buf (c : Caller) (b : Bool) : (startRefill c b s).buf = s.buf := rfl
@[simp] theorem startRefill_ev (c : Caller) (b : Bool) : (startRefill c b s).ev = s.ev := rfl
@[simp] theorem startRefill_lf (c : Caller) (b : Bool) : (startRefill c b s).lf = s.lf := rfl
@[simp] theorem startRefill_cfg (c : Caller) (b : Bool) : (startRefill c b s).cfg = s.cfg := rfl
@[simp] theorem startRefill_st (c : Caller) (b : Bool) : (startRefill c b s).st = s.st := rfl
@[simp] theorem startRefill_act (c : Caller) (b : Bool) : (startRefill c b s).act = .decode c (.refill b []) := rfl
@[simp] theorem startRefill_fin (c : Caller) (b : Bool) : (startRefill c b s).fin = s.fin := rfl
@[simp] theorem startRefill_rx (c : Caller) (b : Bool) : (startRefill c b s).rx = s.rx := rfl
@[simp] theorem startRefill_link (c : Caller) (b : Bool) : (startRefill c b s).link = s.link := rfl
@[simp] theorem startRefill_reachable (c : Caller) (b : Bool) : (startRefill c b s).reachable = s.reachable := rfl
@[simp] theorem startRefill_evt (c : Caller) (b : Bool) : (startRefill c b s).evt = s.evt := rfl
@[simp] theorem startRefill_replies (c : Caller) (b : Bool) : (startRefill c b s).replies = s.replies := rfl
@[simp] theorem startRefill_rxRecords (c : Caller) (b : Bool) : (startRefill c b s).rxRecords = s.rxRecords := rfl
@[simp] theorem startRefill_refills (c : Caller) (b : Bool) : (startRefill c b s).refills = s.refills + 1 := rfl
@[simp] theorem startRefill_agenda (c : Caller) (b : Bool) : (startRefill c b s).agenda = s.agenda := rfl

@[simp] theorem startWords_fs (c : Caller) : (startWords c s).fs = s.fs := rfl
@[simp] theorem startWords_buf (c : Caller) : (startWords c s).buf = s.buf := rfl
@[simp] theorem startWords_ev (c : Caller) : (startWords c s).ev = Event.default := rfl
@[simp] theorem startWords_lf (c : Caller) : (startWords c s).lf = s.lf := rfl
@[simp] theorem startWords_cfg (c : Caller) : (startWords c s).cfg = s.cfg := rfl
@[simp] theorem startWords_st (c : Caller) : (startWords c s).st = s.st := rfl
@[simp] theorem startWords_act (c : Caller) : (startWords c s).act = .decode c .words := rfl
@[simp] theorem startWords_fin (c : Caller) : (startWords c s).fin = s.fin := rfl
@[simp] theorem startWords_rx (c : Caller) : (startWords c s).rx = s.rx := rfl
@[simp] theorem startWords_link (c : Caller) : (startWords c s).link = s.link := rfl
@[simp] theorem startWords_reachable (c : Caller) : (startWords c s).reachable = s.reachable := rfl
@[simp] theorem startWords_evt (c : Caller) : (startWords c s).evt = s.evt := rfl
@[simp] theorem startWords_replies (c : Caller) : (startWords c s).replies = s.replies := rfl
@[simp] theorem startWords_rxRecords (c : Caller) : (startWords c s).rxRecords = s.rxRecords := rfl
@[simp] theorem startWords_refills (c : Caller) : (startWords c s).refills = s.refills := rfl
@[simp] theorem startWords_agenda (c : Caller) : (startWords c s).agenda = s.agenda := rfl

@[simp] theorem startCommand_fs (a : Activity) : (startCommand a s).fs = s.fs := rfl
@[simp] theorem startCommand_buf (a : Activity) : (startCommand a s).buf = s.buf := rfl
@[simp] theorem startCommand_ev (a : Activity) : (startCommand a s).ev = s.ev := rfl
@[simp] theorem startCommand_lf (a : Activity) : (startCommand a s).lf = s.lf := rfl
@[simp] theorem startCommand_cfg (a : Activity) : (startCommand a s).cfg = s.cfg := rfl
@[simp] theorem startCommand_st (a : Activity) : (startCommand a s).st = { s.st with busy := true } := rfl
@[simp] theorem startCommand_act (a : Activity) : (startCommand a s).act = a := rfl
@[simp] theorem startCommand_fin (a : Activity) : (startCommand a s).fin = s.fin := rfl
@[simp] theorem startCommand_rx (a : Activity) : (startCommand a s).rx = s.rx := rfl
@[simp] theorem startCommand_link (a : Activity) : (startCommand a s).link = s.link := rfl
@[simp] theorem startCommand_reachable (a : Activity) : (startCommand a s).reachable = s.reachable := rfl
@[simp] theorem startCommand_evt (a : Activity) : (startCommand a s).evt = s.evt := rfl
@[simp] theorem startCommand_replies (a : Activity) : (startCommand a s).replies = s.replies := rfl
@[simp] theorem startCommand_rxRecords (a : Activity) : (startCommand a s).rxRecords = s.rxRecords := rfl
@[simp] theorem startCommand_refills (a : Activity) : (startCommand a s).refills = s.refills := rfl
@[simp] theorem startCommand_agenda (a : Activity) : (startCommand a s).agenda = s.agenda := rfl

@[simp] theorem startRead_fs : (startRead s).fs = s.fs := rfl
@[simp] theorem startRead_buf : (startRead s).buf = s.buf := rfl
@[simp] theorem startRead_ev : (startRead s).ev = s.ev := rfl
@[simp] theorem startRead_lf : (startRead s).lf = { logging := false, count := 0, result := [] } := rfl
@[simp] theorem startRead_cfg : (startRead s).cfg = s.cfg := rfl
@[simp] theorem startRead_st : (startRead s).st = { s.st with busy := true, done := false } := rfl
@[simp] theorem startRead_act : (startRead s).act = .decode (.read s.cfg) .entry := rfl
@[simp] theorem startRead_fin : (startRead s).fin = s.fin := rfl
@[simp] theorem startRead_rx : (startRead s).rx = s.rx := rfl
@[simp] theorem startRead_link : (startRead s).link = s.link := rfl
@[simp] theorem startRead_reachable : (startRead s).reachable = s.reachable := rfl
@[simp] theorem startRead_evt : (startRead s).evt = s.evt := rfl
@[simp] theorem startRead_replies : (startRead s).replies = s.replies := rfl
@[simp] theorem startRead_rxRecords : (startRead s).rxRecords = s.rxRecords := rfl
@[simp] theorem startRead_refills : (startRead s).refills = s.refills := rfl
@[simp] theorem startRead_agenda : (startRead s).agenda = s.agenda := rfl

@[simp] theorem lfStep_fs (c : Cfg) (e : Event) : (lfStep c e s).fs = s.fs := rfl
@[simp] theorem lfStep_buf (c : Cfg) (e : Event) : (lfStep c e s).buf = s.buf := rfl
@[simp] theorem lfStep_ev (c : Cfg) (e : Event) : (lfStep c e s).ev = s.ev := rfl
@[simp] theorem lfStep_lf (c : Cfg) (e : Event) : (lfStep c e s).lf = 
    { logging := loggingAfter s.lf.logging c e
      count := (if appends s.lf.logging c e then s.lf.count + 1 else s.lf.count)
      result := if appends s.lf.logging c e then s.lf.result ++ [e] else s.lf.result } := rfl
@[simp] theorem lfStep_cfg (c : Cfg) (e : Event) : (lfStep c e s).cfg = s.cfg := rfl
@[simp] theorem lfStep_st (c : Cfg) (e : Event) : (lfStep c e s).st = s.st := rfl
@[simp] theorem lfStep_act (c : Cfg) (e : Event) : (lfStep c e s).act = s.act := rfl
@[simp] theorem lfStep_fin (c : Cfg) (e : Event) : (lfStep c e s).fin = s.fin := rfl
@[simp] theorem lfStep_rx (c : Cfg) (e : Event) : (lfStep c e s).rx = s.rx := rfl
@[simp] theorem lfStep_link (c : Cfg) (e : Event) : (lfStep c e s).link = s.link := rfl
@[simp] theorem lfStep_reachable (c : Cfg) (e : Event) : (lfStep c e s).reachable = s.reachable := rfl
@[simp] theorem lfStep_evt (c : Cfg) (e : Event) : (lfStep c e s).evt = if appends s.lf.logging c e then s.evt ++ [e] else s.evt := rfl
@[simp] theorem lfStep_replies (c : Cfg) (e : Event) : (lfStep c e s).replies = s.replies := rfl
@[simp] theorem lfStep_rxRecords (c : Cfg) (e : Event) : (lfStep c e s).rxRecords = s.rxRecords := rfl
@[simp] theorem lfStep_refills (c : Cfg) (e : Event) : (lfStep c e s).refills = s.refills := rfl
@[simp] theorem lfStep_agenda (c : Cfg) (e : Event) : (lfStep c e s).agenda = s.agenda := rfl

/-! Which Events on EVT outlive the command in progress. -/

theorem validEvents_read {s : State} {c : Cfg} {ph : Phase} (h : s.act = .decode (.read c) ph) :
    validEvents s = s.evt.take (s.evt.length - s.lf.count) := by simp only [validEvents, h]

theorem validEvents_of_not_read {s : State} (h : ∀ c ph, s.act ≠ .decode (.read c) ph) : validEvents s = s.evt := by
  simp only [validEvents]
  split
  · exact absurd ‹_› (h _ _)
  all_goals rfl

@[simp] theorem resetBlock_fs : (resetBlock s).fs = { synced := false, asm := [] } := rfl
@[simp] theorem resetBlock_buf : (resetBlock s).buf = [] := rfl
@[simp] theorem resetBlock_ev : (resetBlock s).ev = Event.default := rfl
@[simp] theorem resetBlock_lf : (resetBlock s).lf = { logging := false, count := 0, result := [] } := rfl
@[simp] theorem resetBlock_cfg : (resetBlock s).cfg = { trigEn := false, trigCode := 0, srcEn := false, srcVal := 0, n := 0, unbounded := false } := rfl
@[simp] theorem resetBlock_st : (resetBlock s).st = { connected := false, err := 0, done := false, busy := false } := rfl
@[simp] theorem resetBlock_act : (resetBlock s).act = .idle := rfl
@[simp] theorem resetBlock_fin : (resetBlock s).fin = none := rfl
@[simp] theorem resetBlock_rx : (resetBlock s).rx = [] := rfl
@[simp] theorem resetBlock_link : (resetBlock s).link = .absent := rfl
@[simp] theorem resetBlock_reachable : (resetBlock s).reachable = s.reachable := rfl
@[simp] theorem resetBlock_evt : (resetBlock s).evt = validEvents s := rfl
@[simp] theorem resetBlock_replies : (resetBlock s).replies = s.replies := rfl
@[simp] theorem resetBlock_rxRecords : (resetBlock s).rxRecords = 0 := rfl
@[simp] theorem resetBlock_refills : (resetBlock s).refills = 0 := rfl
@[simp] theorem resetBlock_agenda : (resetBlock s).agenda = s.agenda := rfl

end Sys2Proof.Laws
end

