-- ==== Sys2Proof/Laws/Ops.lean ====
section
/-! SUPPORT. For each shared operation, once, everything it can do. -/

namespace Sys2Proof.Laws

open Sys2Proof.Machine

/-! Records. -/

/-- A list of bytes is parsed exactly when it is one record. -/
theorem parseRecord_ok_iff (l : List Byte) :
    (∃ w, parseRecord l = .ok w) ↔ l.length = 8 := by
  constructor
  · rintro ⟨w, h⟩
    unfold parseRecord at h
    split at h
    · rfl
    · cases h
  · intro h
    match l, h with
    | [_, _, _, _, _, _, _, _], _ => exact ⟨_, rfl⟩

theorem parseRecord_ok_length {l : List Byte} {w : RawWord} (h : parseRecord l = .ok w) : l.length = 8 :=
  (parseRecord_ok_iff l).1 ⟨w, h⟩

theorem parseRecord_error_length {l : List Byte} {e : DecodeError} (h : parseRecord l = .error e) :
    l.length ≠ 8 := by
  intro hl
  obtain ⟨w, hw⟩ := (parseRecord_ok_iff l).2 hl
  rw [hw] at h
  cases h

/-- The records of a byte sequence that begins with a whole record. -/
theorem recordsOf_append_record {l : List Byte} {w : RawWord} (h : parseRecord l = .ok w) (rest : List Byte) :
    recordsOf (l ++ rest) = w :: recordsOf rest := by
  unfold parseRecord at h
  split at h
  · cases h
    rfl
  · cases h

/-- Fewer than 8 bytes hold no record. -/
theorem recordsOf_short {l : List Byte} (h : l.length < 8) : recordsOf l = [] := by
  unfold recordsOf
  split
  · simp at h
    omega
  · rfl

/-! RX. -/

/-- `RxTake(8)`, when `FS.asm` holds at most 8 bytes: a record if 8 bytes are there, else it waits with all the bytes in
`FS.asm` or breaks with all of them lost. -/
theorem rxTake_cases {s : State} (h : s.fs.asm.length ≤ 8) :
    (∃ w rec rest, s.fs.asm ++ s.rx = rec ++ rest ∧ parseRecord rec = .ok w ∧
      rxTake s = .record w { s with fs := { s.fs with asm := [] }, rx := rest, rxRecords := s.rxRecords + 1 }) ∨
    ((s.fs.asm ++ s.rx).length < 8 ∧ s.link = .up ∧
      rxTake s = .waiting { s with fs := { s.fs with asm := s.fs.asm ++ s.rx }, rx := [] }) ∨
    ((s.fs.asm ++ s.rx).length < 8 ∧ s.link ≠ .up ∧
      rxTake s = .broken { s with fs := { s.fs with asm := [] }, rx := [] }) := by
  by_cases hl : 8 ≤ (s.fs.asm ++ s.rx).length
  · left
    have hlen : (s.fs.asm ++ s.rx.take (Config.recordBytes - s.fs.asm.length)).length = 8 := by
      simp only [List.length_append, List.length_take, Config.recordBytes_eq] at hl ⊢
      omega
    obtain ⟨w, hw⟩ := (parseRecord_ok_iff _).2 hlen
    refine ⟨w, _, s.rx.drop (Config.recordBytes - s.fs.asm.length), ?_, hw, ?_⟩
    · rw [List.append_assoc, List.take_append_drop]
    · simp only [rxTake, hw]
  · right
    have hl' : (s.fs.asm ++ s.rx).length < 8 := by omega
    have htake : s.rx.take (Config.recordBytes - s.fs.asm.length) = s.rx :=
      List.take_of_length_le (by simp only [List.length_append] at hl'; simp only [Config.recordBytes_eq]; omega)
    have hdrop : s.rx.drop (Config.recordBytes - s.fs.asm.length) = [] :=
      List.drop_of_length_le (by simp only [List.length_append] at hl'; simp only [Config.recordBytes_eq]; omega)
    have herr : ∃ e, parseRecord (s.fs.asm ++ s.rx) = .error e := by
      cases hp : parseRecord (s.fs.asm ++ s.rx) with
      | error e => exact ⟨e, rfl⟩
      | ok w => exact absurd (parseRecord_ok_length hp) (by omega)
    obtain ⟨e, he⟩ := herr
    cases hk : s.link with
    | up => exact .inl ⟨hl', rfl, by simp only [rxTake, htake, hdrop, he, hk]⟩
    | absent => exact .inr ⟨hl', by simp, by simp only [rxTake, htake, hdrop, he, hk]⟩
    | ended => exact .inr ⟨hl', by simp, by simp only [rxTake, htake, hdrop, he, hk]⟩

/-- One turn of READ_N, when `FS.asm` holds at most 8 bytes (40_frame_sync.md R81 to R87). -/
theorem readNTurn_cases {n : Nat} {out : List RawWord} {s : State} (h : s.fs.asm.length ≤ 8) :
    (n ≤ out.length ∧ readNTurn n out s = .returned s) ∨
    (out.length < n ∧ ∃ w rec rest, s.fs.asm ++ s.rx = rec ++ rest ∧ parseRecord rec = .ok w ∧
      readNTurn n out s = .going (out ++ fsOutput s.fs.synced w)
        { s with
          fs := { synced := syncedAfter s.fs.synced w.word, asm := [] }
          rx := rest
          rxRecords := s.rxRecords + 1 }) ∨
    (out.length < n ∧ (s.fs.asm ++ s.rx).length < 8 ∧ s.link = .up ∧
      readNTurn n out s = .going out { s with fs := { s.fs with asm := s.fs.asm ++ s.rx }, rx := [] }) ∨
    (out.length < n ∧ (s.fs.asm ++ s.rx).length < 8 ∧ s.link ≠ .up ∧
      readNTurn n out s = .failed { s with fs := { s.fs with asm := [] }, rx := [] }) := by
  by_cases hn : out.length < n
  · right
    rcases rxTake_cases h with ⟨w, rec, rest, h1, h2, h3⟩ | ⟨h1, h2, h3⟩ | ⟨h1, h2, h3⟩
    · exact .inl ⟨hn, w, rec, rest, h1, h2, by simp only [readNTurn, hn, if_true, h3]; rfl⟩
    · exact .inr (.inl ⟨hn, h1, h2, by simp only [readNTurn, hn, if_true, h3]⟩)
    · exact .inr (.inr ⟨hn, h1, h2, by simp only [readNTurn, hn, if_true, h3]⟩)
  · exact .inl ⟨by omega, by simp only [readNTurn, hn, if_false]⟩

/-- What `RxTake(8)` may change, in any state: `FS.asm`, RX and the count of records. -/
def RxFrame (s t : State) : Prop :=
  t = { s with fs := { s.fs with asm := t.fs.asm }, rx := t.rx, rxRecords := t.rxRecords }

theorem rxTake_frame (s : State) :
    (∃ w t, rxTake s = .record w t ∧ RxFrame s t) ∨ (∃ t, rxTake s = .waiting t ∧ RxFrame s t) ∨
    (∃ t, rxTake s = .broken t ∧ RxFrame s t) := by
  simp only [rxTake]
  split
  · exact .inl ⟨_, _, rfl, rfl⟩
  · split
    · exact .inr (.inl ⟨_, rfl, rfl⟩)
    · exact .inr (.inr ⟨_, rfl, rfl⟩)
    · exact .inr (.inr ⟨_, rfl, rfl⟩)

/-- What one turn of READ_N may change, in any state: FS, RX and the count of records; the synchronisation latch is never cleared
(40_frame_sync.md R84). -/
def ReadNFrame (s t : State) : Prop :=
  t = { s with fs := t.fs, rx := t.rx, rxRecords := t.rxRecords } ∧ (s.fs.synced = true → t.fs.synced = true)

theorem readNFrame_of_rxFrame {s t : State} (h : RxFrame s t) : ReadNFrame s t := by
  refine ⟨?_, fun hs => ?_⟩
  · rw [RxFrame] at h
    conv_lhs => rw [h]
    rw [h]
  · rw [h]
    exact hs

theorem readNTurn_frame (n : Nat) (out : List RawWord) (s : State) :
    (∃ out' t, readNTurn n out s = .going out' t ∧ ReadNFrame s t) ∨ (readNTurn n out s = .returned s) ∨
    (∃ t, readNTurn n out s = .failed t ∧ ReadNFrame s t) := by
  simp only [readNTurn]
  split
  · rcases rxTake_frame s with ⟨w, t, h, hf⟩ | ⟨t, h, hf⟩ | ⟨t, h, hf⟩
    · obtain ⟨h1, h2⟩ := readNFrame_of_rxFrame hf
      refine .inl ⟨_, _, by rw [h], ?_, fun hs => ?_⟩
      · rw [fsWordStep]
        conv_lhs => rw [h1]
      · simp only [fsWordStep, syncedAfter, h2 hs, Bool.true_or]
    · exact .inl ⟨_, _, by rw [h], readNFrame_of_rxFrame hf⟩
    · exact .inr (.inr ⟨_, by rw [h], readNFrame_of_rxFrame hf⟩)
  · exact .inr (.inl rfl)

/-! The end of a READ without completion. -/

/-- Everything `validEvents` can answer: with a READ in progress EVT without that READ's last Events, else EVT. -/
theorem validEvents_cases (s : State) :
    ((∃ c ph, s.act = .decode (.read c) ph) ∧ validEvents s = s.evt.take (s.evt.length - s.lf.count)) ∨
    ((∀ c ph, s.act ≠ .decode (.read c) ph) ∧ validEvents s = s.evt) := by
  by_cases h : ∃ c ph, s.act = .decode (.read c) ph
  · obtain ⟨c, ph, h⟩ := h
    exact .inl ⟨⟨c, ph, h⟩, validEvents_read h⟩
  · have h' : ∀ c ph, s.act ≠ .decode (.read c) ph := fun c ph hc => h ⟨c, ph, hc⟩
    exact .inr ⟨h', validEvents_of_not_read h'⟩

theorem mem_of_mem_validEvents {s : State} {e : Event} (h : e ∈ validEvents s) : e ∈ s.evt := by
  rcases validEvents_cases s with ⟨-, hv⟩ | ⟨-, hv⟩ <;> rw [hv] at h
  · exact List.mem_of_mem_take h
  · exact h

/-- What was on EVT before a READ is what stays if the READ ends without completing and the host has taken nothing meanwhile. -/
theorem validEvents_append {s : State} {c : Cfg} {ph : Phase} {old new : List Event} (h : s.act = .decode (.read c) ph)
    (he : s.evt = old ++ new) (hn : s.lf.count = new.length) : validEvents s = old := by
  rw [validEvents_read h, he, hn]
  simp

/-! ED and LF. -/

/-- Every word runs: its field part, then its source part and its terminator part (42_event_assembly.md R120). -/
theorem exec_eq (i : Instr) (s : State) :
    exec i s = .next (finishWord i.marks (fieldPart i s.ev) s) := by
  cases i <;> rfl

theorem marks_ofKind (k : BitVec 4) (m : Marks) (v : Payload) : (ofKind k m v).marks = m := by
  unfold ofKind
  split <;> rfl

@[simp] theorem marks_decode (V : Word) : (decode V).marks = marksOf V := marks_ofKind _ _ _

@[simp] theorem marksOf_t (V : Word) : (marksOf V).t = terminatorBit V := rfl

/-- A popped word runs, with the Event of the pure form (42_event_assembly.md R130). -/
theorem exec_decode (V : Word) (s : State) :
    exec (decode V) s =
      .next { s with
        ev := if terminatorBit V then Event.default else wordEvent V s.ev
        fin := if terminatorBit V then some (wordEvent V s.ev) else s.fin } := by
  rw [exec_eq]
  simp only [finishWord, marks_decode, marksOf_t, wordEvent]

theorem fifoPop_cons {s : State} {w : RawWord} {rest : List RawWord} (h : s.buf = w :: rest) :
    fifoPop s = some (w, { s with buf := rest }) := by
  simp only [fifoPop, h]

/-- A turn of the loop of DECODE_ONE (42_event_assembly.md R123). -/
theorem wordTurn_cases (c : Caller) (s : State) :
    (∃ e, s.fin = some e ∧ wordTurn c s = .next (deliver c e s)) ∨
    (s.fin = none ∧ s.buf = [] ∧ wordTurn c s = .next (startRefill c false s)) ∨
    (s.fin = none ∧ ∃ w rest, s.buf = w :: rest ∧
      wordTurn c s = exec (decode w.word) { s with buf := rest }) := by
  cases hf : s.fin with
  | some e => exact .inl ⟨e, rfl, by simp only [wordTurn, hf]⟩
  | none =>
    cases hb : s.buf with
    | nil => exact .inr (.inl ⟨rfl, rfl, by simp only [wordTurn, hf, hb, List.isEmpty_nil, if_true]⟩)
    | cons w rest =>
      exact .inr (.inr ⟨rfl, w, rest, rfl, by simp [wordTurn, hf, hb, fifoPop_cons hb]⟩)

/-- One turn of a host's READ_N, in any state. -/
theorem hostReadNTurn_cases (n : Nat) (out : List RawWord) (s : State) :
    (∃ out' s1, ReadNFrame s s1 ∧ hostReadNTurn n out s = { s1 with act := .readN n out' }) ∨
    hostReadNTurn n out s = commandReturn (.words out) s ∨
    (∃ s1, ReadNFrame s s1 ∧ hostReadNTurn n out s = raise .transportError s1) := by
  rcases readNTurn_frame n out s with ⟨o, t, h, hf⟩ | h | ⟨t, h, hf⟩
  · exact .inl ⟨o, t, hf, by simp only [hostReadNTurn, h]⟩
  · exact .inr (.inl (by simp only [hostReadNTurn, h]))
  · exact .inr (.inr ⟨t, hf, by simp only [hostReadNTurn, h]⟩)

/-- One turn of a refill, in any state. -/
theorem refillTurn_cases (c : Caller) (atEntry : Bool) (out : List RawWord) (s : State) :
    (∃ out' s1, ReadNFrame s s1 ∧ refillTurn c atEntry out s = { s1 with act := .decode c (.refill atEntry out') }) ∨
    (refillTurn c atEntry out s = { s with
      buf := s.buf ++ out, act := .decode c .words, ev := if atEntry then Event.default else s.ev }) ∨
    (∃ s1, ReadNFrame s s1 ∧ refillTurn c atEntry out s = raise .transportError s1) := by
  rcases readNTurn_frame Config.refillBatch out s with ⟨o, t, h, hf⟩ | h | ⟨t, h, hf⟩
  · exact .inl ⟨o, t, hf, by simp only [refillTurn, h]⟩
  · refine .inr (.inl ?_)
    simp only [refillTurn, h]
    cases atEntry <;> rfl
  · exact .inr (.inr ⟨t, hf, by simp only [refillTurn, h]⟩)

/-- The entry of DECODE_ONE, in any state (42_event_assembly.md R124, 43_lock_cycle_filter.md R145). -/
theorem entryTurn_cases (c : Caller) (s : State) :
    (callerWants c s = true ∧ s.buf.length < 10 ∧ entryTurn c s = startRefill c true s) ∨
    (callerWants c s = true ∧ 10 ≤ s.buf.length ∧ entryTurn c s = startWords c s) ∨
    (callerWants c s = false ∧ entryTurn c s = readComplete s) := by
  cases h : callerWants c s with
  | false => exact .inr (.inr ⟨rfl, by simp [entryTurn, h]⟩)
  | true =>
    by_cases hb : s.buf.length < 10
    · exact .inl ⟨rfl, hb, by simp [entryTurn, h, hb]⟩
    · exact .inr (.inl ⟨rfl, by omega, by simp [entryTurn, h, hb]⟩)

/-- Everything one turn of the block can do. -/
theorem blockTurn_cases (s : State) :
    (s.act = .idle ∧ blockTurn s = .next s) ∨
    (∃ reached, s.act = .connecting reached ∧ blockTurn s = .next (connectTurn reached s)) ∨
    (∃ n out, s.act = .readN n out ∧ blockTurn s = .next (hostReadNTurn n out s)) ∨
    (∃ c, s.act = .decode c .entry ∧ blockTurn s = .next (entryTurn c s)) ∨
    (∃ c atEntry out, s.act = .decode c (.refill atEntry out) ∧ blockTurn s = .next (refillTurn c atEntry out s)) ∨
    (∃ c e, s.act = .decode c .words ∧ s.fin = some e ∧ blockTurn s = .next (deliver c e s)) ∨
    (∃ c, s.act = .decode c .words ∧ s.fin = none ∧ s.buf = [] ∧ blockTurn s = .next (startRefill c false s)) ∨
    (∃ c w rest, s.act = .decode c .words ∧ s.fin = none ∧ s.buf = w :: rest ∧
      blockTurn s = .next { s with
        buf := rest
        ev := if terminatorBit w.word then Event.default else wordEvent w.word s.ev
        fin := if terminatorBit w.word then some (wordEvent w.word s.ev) else none }) := by
  cases h : s.act with
  | idle => exact .inl ⟨rfl, by simp only [blockTurn, h]⟩
  | connecting r => exact .inr (.inl ⟨r, rfl, by simp only [blockTurn, h]⟩)
  | readN n out => exact .inr (.inr (.inl ⟨n, out, rfl, by simp only [blockTurn, h]⟩))
  | decode c ph =>
    cases ph with
    | entry => exact .inr (.inr (.inr (.inl ⟨c, rfl, by simp only [blockTurn, h]⟩)))
    | refill a out => exact .inr (.inr (.inr (.inr (.inl ⟨c, a, out, rfl, by simp only [blockTurn, h]⟩))))
    | words =>
      have hb : blockTurn s = wordTurn c s := by simp only [blockTurn, h]
      rcases wordTurn_cases c s with ⟨e, h1, h2⟩ | ⟨h1, h2, h3⟩ | ⟨h1, w, rest, h2, h3⟩
      · exact .inr (.inr (.inr (.inr (.inr (.inl ⟨c, e, rfl, h1, by rw [hb, h2]⟩)))))
      · exact .inr (.inr (.inr (.inr (.inr (.inr (.inl ⟨c, rfl, h1, h2, by rw [hb, h3]⟩))))))
      · refine .inr (.inr (.inr (.inr (.inr (.inr (.inr ⟨c, w, rest, rfl, h1, h2, ?_⟩))))))
        rw [hb, h3, exec_decode]
        simp only [h1, h]

theorem blockTurn_next (s : State) : ∃ t, blockTurn s = .next t := by
  rcases blockTurn_cases s with ⟨-, h⟩ | ⟨_, -, h⟩ | ⟨_, _, -, h⟩ | ⟨_, -, h⟩ | ⟨_, _, _, -, h⟩ | ⟨_, _, -, -, h⟩ |
    ⟨_, -, -, -, h⟩ | ⟨_, _, _, -, -, -, h⟩ <;> exact ⟨_, h⟩

/-! The environment. -/

/-- Everything an action of the host can do: nothing, where its condition does not hold, or the effect of its row in
60_exceptions.md R176. -/
theorem hostTurn_cases (a : HostAct) (s : State) :
    hostTurn a s = s ∨
    (a = .reset ∧ hostTurn a s = resetBlock s) ∨
    (∃ ep, a = .connect ep ∧ s.st.err = 0 ∧ s.st.busy = false ∧
      hostTurn a s = startCommand (.connecting (s.reachable.contains ep)) s) ∨
    (∃ w, a = .writeCfg w ∧ s.st.busy = false ∧ hostTurn a s = { s with cfg := s.cfg.write w }) ∨
    (a = .read ∧ s.st.connected = true ∧ s.st.err = 0 ∧ s.st.busy = false ∧ hostTurn a s = startRead s) ∨
    (a = .decodeOne ∧ s.st.connected = true ∧ s.st.err = 0 ∧ s.st.busy = false ∧
      hostTurn a s = startCommand (.decode .host .entry) s) ∨
    (∃ n, a = .readN n ∧ s.st.connected = true ∧ s.st.err = 0 ∧ s.st.busy = false ∧
      hostTurn a s = startCommand (.readN n []) s) ∨
    (a = .readStatus ∧ hostTurn a s = reply (.status s.st s.fs.synced s.lf.logging) s) ∨
    (∃ e rest, a = .takeEvent ∧ s.evt = e :: rest ∧
      hostTurn a s = { s with evt := rest, replies := s.replies ++ [.taken e] }) ∨
    (a = .closeTransport ∧ s.link ≠ .absent ∧ hostTurn a s = { s with link := .ended, rx := [] }) := by
  have ready : s.st.ready = true → s.st.connected = true ∧ s.st.err = 0 ∧ s.st.busy = false := by
    simp only [Status.ready, Status.halted, Bool.and_eq_true, Bool.not_eq_true', bne_eq_false_iff_eq]
    tauto
  cases a with
  | reset => exact .inr (.inl ⟨rfl, rfl⟩)
  | connect ep =>
    by_cases h : (!s.st.halted && !s.st.busy) = true
    · have h' : s.st.err = 0 ∧ s.st.busy = false := by
        simpa only [Status.halted, Bool.and_eq_true, Bool.not_eq_true', bne_eq_false_iff_eq] using h
      exact .inr (.inr (.inl ⟨ep, rfl, h'.1, h'.2, if_pos h⟩))
    · exact .inl (if_neg h)
  | writeCfg w =>
    by_cases h : s.st.busy = true
    · exact .inl (if_pos h)
    · exact .inr (.inr (.inr (.inl ⟨w, rfl, by simpa using h, if_neg h⟩)))
  | read =>
    by_cases h : s.st.ready = true
    · obtain ⟨h1, h2, h3⟩ := ready h
      exact .inr (.inr (.inr (.inr (.inl ⟨rfl, h1, h2, h3, if_pos h⟩))))
    · exact .inl (if_neg h)
  | decodeOne =>
    by_cases h : s.st.ready = true
    · obtain ⟨h1, h2, h3⟩ := ready h
      exact .inr (.inr (.inr (.inr (.inr (.inl ⟨rfl, h1, h2, h3, if_pos h⟩)))))
    · exact .inl (if_neg h)
  | readN n =>
    by_cases h : s.st.ready = true
    · obtain ⟨h1, h2, h3⟩ := ready h
      exact .inr (.inr (.inr (.inr (.inr (.inr (.inl ⟨n, rfl, h1, h2, h3, if_pos h⟩))))))
    · exact .inl (if_neg h)
  | readStatus => exact .inr (.inr (.inr (.inr (.inr (.inr (.inr (.inl ⟨rfl, rfl⟩)))))))
  | takeEvent =>
    cases h : s.evt with
    | nil => exact .inl (by simp only [hostTurn, takeEvent, h])
    | cons e rest =>
      exact .inr (.inr (.inr (.inr (.inr (.inr (.inr (.inr (.inl
        ⟨e, rest, rfl, rfl, by simp only [hostTurn, takeEvent, h]⟩))))))))
  | closeTransport =>
    by_cases h : s.link = .absent
    · exact .inl (by simp only [hostTurn, breakLink, h])
    · refine .inr (.inr (.inr (.inr (.inr (.inr (.inr (.inr (.inr ⟨rfl, h, ?_⟩))))))))
      simp only [hostTurn, breakLink]
      split
      · exact absurd ‹_› h
      · rfl
      · rfl

/-- Everything an action of the transport can do. -/
theorem transportTurn_cases (a : TransportAct) (s : State) :
    transportTurn a s = s ∨
    (∃ eps, a = .setReachable eps ∧ transportTurn a s = { s with reachable := eps }) ∨
    (∃ bytes, a = .deliver bytes ∧ s.link = .up ∧ transportTurn a s = { s with rx := s.rx ++ bytes }) ∨
    (a = .close ∧ s.link = .up ∧ transportTurn a s = { s with link := .ended }) ∨
    (a = .fail ∧ s.link ≠ .absent ∧ transportTurn a s = { s with link := .ended, rx := [] }) := by
  cases a with
  | setReachable eps => exact .inr (.inl ⟨eps, rfl, rfl⟩)
  | deliver bytes =>
    by_cases h : s.link = .up
    · exact .inr (.inr (.inl ⟨bytes, rfl, h, by simp only [transportTurn, h]⟩))
    · refine .inl ?_
      simp only [transportTurn]
      split
      · exact absurd ‹_› h
      · rfl
      · rfl
  | close =>
    by_cases h : s.link = .up
    · exact .inr (.inr (.inr (.inl ⟨rfl, h, by simp only [transportTurn, h]⟩)))
    · refine .inl ?_
      simp only [transportTurn]
      split
      · exact absurd ‹_› h
      · rfl
      · rfl
  | fail =>
    by_cases h : s.link = .absent
    · exact .inl (by simp only [transportTurn, breakLink, h])
    · refine .inr (.inr (.inr (.inr ⟨rfl, h, ?_⟩)))
      simp only [transportTurn, breakLink]
      split
      · exact absurd ‹_› h
      · rfl
      · rfl

/-! The step. -/

@[simp] theorem step_empty {s : State} (h : s.agenda = []) : step s = blockTurn s := by
  simp only [step, nextTurn, h]

theorem step_turn {s : State} {t : Turn} {rest : List Turn} (h : s.agenda = t :: rest) :
    step s = turn t { s with agenda := rest } := by
  simp only [step, nextTurn, h]

theorem turn_host (a : HostAct) (s : State) : turn (.host a) s = .next (hostTurn a s) := rfl
theorem turn_transport (a : TransportAct) (s : State) : turn (.transport a) s = .next (transportTurn a s) := rfl
theorem turn_block (s : State) : turn .block s = blockTurn s := rfl

/-- Whose turn a step is: with the agenda empty or a block's turn in front, the block's. -/
theorem step_cases (s : State) :
    (∃ s0, (s.agenda = [] ∧ s0 = s ∨ ∃ rest, s.agenda = .block :: rest ∧ s0 = { s with agenda := rest }) ∧
      step s = blockTurn s0) ∨
    (∃ a rest, s.agenda = .host a :: rest ∧ step s = .next (hostTurn a { s with agenda := rest })) ∨
    (∃ a rest, s.agenda = .transport a :: rest ∧
      step s = .next (transportTurn a { s with agenda := rest })) := by
  cases h : s.agenda with
  | nil => exact .inl ⟨s, .inl ⟨rfl, rfl⟩, step_empty h⟩
  | cons t rest =>
    cases t with
    | host a => exact .inr (.inl ⟨a, rest, rfl, step_turn h⟩)
    | transport a => exact .inr (.inr ⟨a, rest, rfl, step_turn h⟩)
    | block => exact .inl ⟨_, .inr ⟨rest, rfl, rfl⟩, step_turn h⟩

/-! Runs. -/

@[simp] theorem runFor_zero (s : State) : runFor 0 s = .next s := rfl

theorem runFor_succ_next {k : Nat} {s t : State} (h : step s = .next t) : runFor (k + 1) s = runFor k t := by
  simp only [runFor, h]

theorem step_next (s : State) : ∃ t, step s = .next t := by
  rcases step_cases s with ⟨s0, -, h⟩ | ⟨a, r, -, h⟩ | ⟨a, r, -, h⟩
  · rw [h]
    exact blockTurn_next s0
  · exact ⟨_, h⟩
  · exact ⟨_, h⟩

/-- A run of `k + 1` steps is one step and a run of `k`. -/
theorem runFor_succ_inv {k : Nat} {s t : State} (h : runFor (k + 1) s = .next t) :
    ∃ u, step s = .next u ∧ runFor k u = .next t := by
  obtain ⟨u, hu⟩ := step_next s
  exact ⟨u, hu, by rw [← runFor_succ_next hu, h]⟩

/-- A property that every step keeps holds at the end of every run that starts with it. -/
theorem runFor_keeps {P : State → Prop} (hP : ∀ s t, P s → step s = .next t → P t) {k : Nat} {s t : State}
    (hs : P s) (h : runFor k s = .next t) : P t := by
  induction k generalizing s with
  | zero =>
    cases h
    exact hs
  | succ k ih =>
    obtain ⟨u, hu, hr⟩ := runFor_succ_inv h
    exact ih (hP s u hs hu) hr

/-- The machine's runs are the host's. -/
theorem runFor_eq_core_run (k : Nat) (s : State) : runFor k s = Sys2Proof.core.run k s := by
  induction k generalizing s with
  | zero => rfl
  | succ k ih =>
    obtain ⟨u, hu⟩ := step_next s
    rw [runFor_succ_next hu, ih u]
    have h' : Sys2Proof.core.step s = .next u := hu
    simp only [Host.Core.run, h']
    rfl

end Sys2Proof.Laws
end

