-- ==== Sys2Proof/Laws/PerInstr.lean ====
section
/-! SUPPORT. Families of statements made once per instruction. -/

namespace Sys2Proof.Laws

/-- The word of an instruction has its row's kind at bits 27 to 24 (30_encoding.md R62, R64). -/
def KindField.Statement (i : Instr) : Prop := (encode i).extractLsb' 24 4 = i.kind

/-- Bits 27 to 24 of an encoded word are the kind it was encoded with. -/
theorem kind_encodeFields (k : BitVec 4) (v : Payload) (m : Marks) :
    (encodeFields k v m).extractLsb' 24 4 = k := by
  apply BitVec.eq_of_getLsbD_eq
  intro j hj
  have h : j = 0 ∨ j = 1 ∨ j = 2 ∨ j = 3 := by omega
  rcases h with rfl | rfl | rfl | rfl <;> simp [encodeFields, bitAt]

theorem KindField.y (m : Marks) (v : Payload) : KindField.Statement (.y m v) := kind_encodeFields _ _ _
theorem KindField.err (m : Marks) (v : Payload) : KindField.Statement (.err m v) := kind_encodeFields _ _ _
theorem KindField.tag (m : Marks) (v : Payload) : KindField.Statement (.tag m v) := kind_encodeFields _ _ _
theorem KindField.period (m : Marks) (v : Payload) : KindField.Statement (.period m v) := kind_encodeFields _ _ _
theorem KindField.event (m : Marks) (v : Payload) : KindField.Statement (.event m v) := kind_encodeFields _ _ _
theorem KindField.ref (m : Marks) (v : Payload) : KindField.Statement (.ref m v) := kind_encodeFields _ _ _
theorem KindField.sampleid (m : Marks) (v : Payload) : KindField.Statement (.sampleid m v) := kind_encodeFields _ _ _
theorem KindField.unk7 (m : Marks) (v : Payload) : KindField.Statement (.unk7 m v) := kind_encodeFields _ _ _
theorem KindField.unk8 (m : Marks) (v : Payload) : KindField.Statement (.unk8 m v) := kind_encodeFields _ _ _
theorem KindField.unk9 (m : Marks) (v : Payload) : KindField.Statement (.unk9 m v) := kind_encodeFields _ _ _
theorem KindField.unk10 (m : Marks) (v : Payload) : KindField.Statement (.unk10 m v) := kind_encodeFields _ _ _
theorem KindField.unk11 (m : Marks) (v : Payload) : KindField.Statement (.unk11 m v) := kind_encodeFields _ _ _
theorem KindField.unk12 (m : Marks) (v : Payload) : KindField.Statement (.unk12 m v) := kind_encodeFields _ _ _
theorem KindField.unk13 (m : Marks) (v : Payload) : KindField.Statement (.unk13 m v) := kind_encodeFields _ _ _
theorem KindField.unk14 (m : Marks) (v : Payload) : KindField.Statement (.unk14 m v) := kind_encodeFields _ _ _
theorem KindField.unk15 (m : Marks) (v : Payload) : KindField.Statement (.unk15 m v) := kind_encodeFields _ _ _

end Sys2Proof.Laws
end

