-- ==== Sys2Proof/Tests/Slice0.lean ====
section
/-! SUPPORT. Tests by hand from spec/95_test_vectors.md and the rules, and for every statement with hypotheses a concrete
state that meets them. -/

namespace Sys2Proof.Tests

open Sys2Proof.Machine Sys2Proof.Statements

/-! ## Decoding: one word written out by hand for every kind (30_encoding.md R62, R64; 95_test_vectors.md 2.3) -/

/-- No flag set. -/
def plain : Marks := { t := false, p := false, h := false, x := false }

/-- `T` alone. -/
def term : Marks := { t := true, p := false, h := false, x := false }

theorem test_decode_y : decode 0x00ABCDEF#32 = .y plain 0xABCDEF#24 := by decide
theorem test_decode_err : decode 0x01800000#32 = .err plain 0x800000#24 := by decide
theorem test_decode_tag : decode 0x02000005#32 = .tag plain 5#24 := by decide
theorem test_decode_period : decode 0x030003E8#32 = .period plain 1000#24 := by decide
theorem test_decode_event : decode 0x04000001#32 = .event plain 1#24 := by decide
theorem test_decode_ref : decode 0x0500ABCD#32 = .ref plain 43981#24 := by decide
theorem test_decode_sampleid : decode 0x06000100#32 = .sampleid plain 256#24 := by decide
theorem test_decode_unk7 : decode 0x07FFFFFF#32 = .unk7 plain 0xFFFFFF#24 := by decide
theorem test_decode_unk8 : decode 0x08000000#32 = .unk8 plain 0#24 := by decide
theorem test_decode_unk9 : decode 0x89000001#32 = .unk9 term 1#24 := by decide
theorem test_decode_unk10 : decode 0x4A000002#32 = .unk10 { plain with p := true } 2#24 := by decide
theorem test_decode_unk11 : decode 0x2B000003#32 = .unk11 { plain with h := true } 3#24 := by decide
theorem test_decode_unk12 : decode 0x1C000004#32 = .unk12 { plain with x := true } 4#24 := by decide
theorem test_decode_unk13 : decode 0x0D800001#32 = .unk13 plain 0x800001#24 := by decide
theorem test_decode_unk14 : decode 0xFE000000#32 = .unk14 { t := true, p := true, h := true, x := true } 0#24 := by decide
theorem test_decode_unk15 : decode 0xCF123456#32 = .unk15 { term with p := true } 0x123456#24 := by decide

/-- 95_test_vectors.md 2.3: all four flags at once. -/
theorem test_decode_all_marks :
    decode 0xF6FFFFFF#32 = .sampleid { t := true, p := true, h := true, x := true } 0xFFFFFF#24 := by decide

/-- 95_test_vectors.md S3. -/
theorem test_encode_err : encode (.err term 0xFFFFFD#24) = 0x81FFFFFD#32 := by decide

/-- 41_field_decode.md R100 on the same word. -/
theorem test_tagged_field : taggedField 0x81FFFFFD#32 =
    { terminator := true, sourcePrelock := false, sourceHelper := false, kind := 1#4, payload := 0xFFFFFD#24 } := by
  decide

/-- The opcode table's numbering, on the row TAG. -/
theorem test_table_word : decodeTableWord 32 0x02000005 = some (.tag plain 5#24) := by decide

/-! ## Records (95_test_vectors.md 2.1, 2.4) -/

theorem test_record_s3 : parseRecord [0xFD, 0xFF, 0xFF, 0x81, 0x78, 0x56, 0x34, 0x12] =
    .ok { word := 0x81FFFFFD, seq := 0x5678 } := by rfl

theorem test_record_counter_dropped : parseRecord [0x05, 0x00, 0x00, 0x02, 0x00, 0x00, 0xCD, 0xAB] =
    .ok { word := 0x02000005, seq := 0 } := by rfl

theorem test_record_byte_order : parseRecord [1, 2, 3, 4, 5, 6, 7, 8] =
    .ok { word := 0x04030201, seq := 0x0605 } := by rfl

theorem test_encode_record : encodeRecord 0x81FFFFFD 0x12345678 =
    [0xFD, 0xFF, 0xFF, 0x81, 0x78, 0x56, 0x34, 0x12] := by decide

/-- Four bytes lost: counters are decoded as words (95_test_vectors.md 2.4). -/
theorem test_miscut : recordsOf
    [0x10, 0, 0, 0, 0xFD, 0xFF, 0xFF, 0x81, 0x11, 0, 0, 0, 0, 0, 0, 0x80, 0x12, 0, 0, 0] =
    [{ word := 0x10, seq := 0xFFFD }, { word := 0x11, seq := 0 }] := by decide

/-! ## Well-formedness: an ill-formed term for each check (30_encoding.md R60, R74) -/

/-- `ERR(-3).T` as it is written. -/
def errText : WordText := { kind := 1, value := -3, t := true, p := false, h := false, x := false }

theorem test_wf_text : errText.wf = true ∧ errText.encode = 0x81FFFFFD#32 := by decide
theorem test_render : errText.render = "ERR(-3).T" := by decide
theorem test_refuses_kind_16 : ({ errText with kind := 16, value := 0 } : WordText).kindOk = false := by decide
theorem test_refuses_25_bits : ({ errText with value := 0x1000000 } : WordText).valueOk = false := by decide
theorem test_refuses_err_too_low : ({ errText with value := -8388609 } : WordText).valueOk = false := by decide
theorem test_refuses_negative_tag : ({ errText with kind := 2 } : WordText).valueOk = false := by decide
theorem test_refuses_seven_bytes : recordWf [1, 2, 3, 4, 5, 6, 7] = false := by decide
theorem test_refuses_nine_bytes : recordWf [1, 2, 3, 4, 5, 6, 7, 8, 9] = false := by decide

/-! ## Words (95_test_vectors.md 2.3, 2.4, S3, S4) -/

/-- `EV` and the finalized Event after a word on the state after reset. -/
def after (V : Word) : Option (Event × Option Event) :=
  match exec (decode V) State.reset with
  | .next t => some (t.ev, t.fin)
  | .fault _ | .refused _ => none

theorem test_y : after 0x00ABCDEF = some ({ Event.default with y := 52719 }, none) := by decide
theorem test_y_ignored_bits : after 0x00010000 = some (Event.default, none) := by decide
theorem test_err_smallest : (after 0x01800000).map (fun r => r.1.err.toInt) = some (-8388608) := by decide
theorem test_err_largest : (after 0x017FFFFF).map (fun r => r.1.err.toInt) = some 8388607 := by decide
theorem test_tag : after 0x02FFFFFF = some ({ Event.default with tag := 16777215 }, none) := by decide
theorem test_period : after 0x03FFFFFF = some ({ Event.default with period := 4095 }, none) := by decide
theorem test_period_ignored_bits : after 0x03001000 = some (Event.default, none) := by decide
theorem test_event : after 0x04FFFFFF = some ({ Event.default with eventCode := 16777215 }, none) := by decide
theorem test_ref : after 0x0500ABCD = some ({ Event.default with ref := 43981 }, none) := by decide
theorem test_sampleid : after 0xF6FFFFFF =
    some (Event.default, some { Event.default with sampleId := 16777215, source := 3 }) := by decide
theorem test_unk7 : after 0x07FFFFFF = some (Event.default, none) := by decide
theorem test_unk15 : after 0xCF123456 = some (Event.default, some { Event.default with source := 2 }) := by decide

/-- 10_state.md R16: the two named codes and one without a name. -/
theorem test_event_names : eventKind 1 = .pllStartup ∧ eventKind 2 = .pllLocked ∧ eventKind 7 = .unnamed 7 := by decide

/-- 95_test_vectors.md S3. -/
theorem test_assemble_s3 : assemble [0x02000005, 0x81FFFFFD] =
    ([{ Event.default with tag := 5, err := 0xFFFFFFFD }], Event.default) := by decide

/-- 95_test_vectors.md S4. -/
theorem test_assemble_s4 : (assemble [0x20000001, 0xC2000002]).1 =
    [{ Event.default with y := 1, tag := 2, source := 3 }] := by decide

/-- 95_test_vectors.md 2.4: nothing is carried over to the next Event. -/
theorem test_assemble_no_carry : (assemble [0x82000005, 0x81000001]).1 =
    [{ Event.default with tag := 5 }, { Event.default with err := 1 }] := by decide

/-! ## FS and LF (95_test_vectors.md 2.2, 2.6) -/

/-- RawWords with sequence number 0. -/
def raw (ws : List Word) : List RawWord := ws.map (fun V => { word := V, seq := 0 })

theorem test_sync_s2 : syncWords false (raw [0x02000001, 0x81000002, 0x06000003, 4]) = raw [0x06000003, 4] := by decide
theorem test_sync_every_bit_but_31 : syncWords false (raw [0x7FFFFFFF]) = [] ∧ syncedAfter false 0x7FFFFFFF = false := by
  decide

/-- An Event with these. -/
def ev (code : BitVec 24) (source : SourceSet) : Event := { Event.default with eventCode := code, source := source }

/-- A configuration with these. -/
def cfgOf (trigEn : Bool) (trigCode : BitVec 24) (srcEn : Bool) (srcVal : SourceSet) (n : Nat) : Cfg :=
  { trigEn := trigEn, trigCode := trigCode, srcEn := srcEn, srcVal := srcVal, n := n, unbounded := false }

theorem test_filter_s5 : filterEvents (cfgOf true 1 false 0 3) [ev 0 0, ev 1 0, ev 0 0, ev 2 0] =
    [ev 1 0, ev 0 0, ev 2 0] := by decide

/-- The trigger Event itself is dropped by the source filter (R141). -/
theorem test_filter_trigger_dropped :
    filterEvents (cfgOf true 1 true 2 2) [ev 1 3, ev 0 2, ev 0 1, ev 1 2] = [ev 0 2, ev 1 2] := by decide

theorem test_filter_source_is_equality :
    filterEvents (cfgOf false 0 true 1 2) [ev 0 3, ev 0 1, ev 0 0, ev 0 1] = [ev 0 1, ev 0 1] := by decide

/-! ## States for the witnesses -/

/-- A connected, synced, idle block. -/
def up : State :=
  { State.reset with
    fs := { synced := true, asm := [] }
    st := { connected := true, err := 0, done := false, busy := false }
    link := .up }

/-- The same with a command in progress. -/
def busy (a : Activity) : State := { up with st := { up.st with busy := true }, act := a }

/-- A bounded READ of one Event, of anything. -/
def one : Cfg := cfgOf false 0 false 0 1

/-- An unbounded READ of anything. -/
def endless : Cfg := { one with unbounded := true }

/-- A whole record, the word `TAG(5).T` with counter 1. -/
def record : List Byte := [5, 0, 0, 0x82, 1, 0, 0, 0]

/-- The RawWord of `record`. -/
def tag5 : RawWord := { word := 0x82000005, seq := 1 }

/-- A word without `T`. -/
def bare : RawWord := { word := 0x02000005, seq := 0 }

/-- What a step or a run ends in, tested. -/
def nextWith (o : Host.Outcome State Fault Refusal) (p : State → Bool) : Bool :=
  match o with
  | .next t => p t
  | .fault _ | .refused _ => false

theorem of_nextWith {o : Host.Outcome State Fault Refusal} {p : State → Bool} (h : nextWith o p = true) :
    ∃ t, o = .next t ∧ p t = true := by
  cases o with
  | next t => exact ⟨t, rfl, h⟩
  | fault _ => cases h
  | refused _ => cases h

theorem default_inRange : Event.default.InRange := by
  simp [Event.InRange, Event.default]

/-- The invariant of a block that is connected, synced, not halted and without results, from the conditions its command sets. -/
theorem inv_busy (a : Activity) (buf : List RawWord) (ha : a ≠ .idle) (hb : buf.length ≤ 109)
    (hn : ∀ n out, a = .readN n out → out.length ≤ n)
    (hr : ∀ c atEntry out, a = .decode c (.refill atEntry out) →
      out.length ≤ 100 ∧ buf.length < 10 ∧ (atEntry = false → buf = []))
    (hc : ∀ c ph, a = .decode (.read c) ph → ph ≠ .entry → c.unbounded = false → 0 < c.n) :
    ({ busy a with buf := buf } : State).Inv where
  errLegal := by simp [busy, up]
  busyIff := by simp [busy, up, ha]
  haltedIdle := by simp [busy, up]
  needsConnected := by simp [busy, up]
  connectedLink := by simp [busy, up]
  doneQuiet := by simp [busy, up]
  asmShort := by simp [busy, up]
  asmEmpty := by simp [busy, up]
  bufBound := hb
  unsyncedEmpty := by simp [busy, up]
  readNBound := hn
  refillBound := hr
  evBoundary := by simp [busy, up, State.reset]
  finBoundary := by simp [busy, up, State.reset]
  countResult := by simp [busy, up, State.reset]
  readBound := fun c ph h hu => ⟨Nat.zero_le _, fun hp => hc c ph h hp hu⟩
  evRange := default_inRange
  finRange := by simp [busy, up, State.reset]
  resultRange := by simp [busy, up, State.reset]
  evtRange := by simp [busy, up, State.reset]
  repliesRange := by simp [busy, up, State.reset]
  readEvents := by simp [busy, up, State.reset]

/-- The invariant of an idle block, halted or not, with nothing in it. -/
theorem inv_idle (st : Status) (hb : st.busy = false) (he : st.err ≠ 3) (hd : st.done = true → st.err = 0) :
    ({ up with st := st } : State).Inv where
  errLegal := he
  busyIff := by simp [up, hb, State.reset]
  haltedIdle := by simp [up, State.reset]
  needsConnected := by simp [up, State.reset, Activity.needsConnection]
  connectedLink := by simp [up]
  doneQuiet := fun h => ⟨hd h, by simp [up, State.reset]⟩
  asmShort := by simp [up]
  asmEmpty := by simp [up]
  bufBound := by simp [up, State.reset]
  unsyncedEmpty := by simp [up]
  readNBound := by simp [up, State.reset]
  refillBound := by simp [up, State.reset]
  evBoundary := by simp [up, State.reset]
  finBoundary := by simp [up, State.reset]
  countResult := by simp [up, State.reset]
  readBound := by simp [up, State.reset]
  evRange := default_inRange
  finRange := by simp [up, State.reset]
  resultRange := by simp [up, State.reset]
  evtRange := by simp [up, State.reset]
  repliesRange := by simp [up, State.reset]
  readEvents := by simp [up, State.reset]

/-! ## Witnesses: for each statement with hypotheses, a concrete state and operands that meet all of them, each clause at a
boundary value -/

theorem witness_DecodeOfEncodeIsTheInstruction : (Instr.unk15 term 0xFFFFFF#24).wf = true := by decide

/-- The lengths at which the three clauses meet. -/
theorem witness_OnlyEightBytesAreARecord :
    (record.take 7).length < 8 ∧ record.length = 8 ∧ ¬ (record ++ [0]).length < 8 ∧ (record ++ [0]).length ≠ 8 := by decide

/-- Different payloads that agree in the low 16 bits, and in the low 12 bits. -/
theorem witness_IgnoredPayloadBitsChangeNothing :
    (0xABCDEF#24).extractLsb' 0 16 = (0x00CDEF#24).extractLsb' 0 16 ∧ 0xABCDEF#24 ≠ 0x00CDEF#24 ∧
    (0xFFFFFF#24).extractLsb' 0 12 = (0x000FFF#24).extractLsb' 0 12 ∧ 0xFFFFFF#24 ≠ 0x000FFF#24 := by decide

/-- The smallest ERR, the largest payload, and the largest kind. -/
theorem witness_WrittenFormEncodesItsFields :
    ({ errText with value := -8388608 } : WordText).wf = true ∧
    ({ errText with kind := 15, value := 0xFFFFFF } : WordText).wf = true := by decide

/-- Both sides of the sign test of R102. -/
theorem witness_ErrWritesTheSignExtendedPayload :
    ¬ (0x7FFFFF#24).toNat > 0x7FFFFF ∧ (0x800000#24).toNat > 0x7FFFFF := by decide

/-- The lowest and the highest unknown kind. -/
theorem witness_UnknownKindsWriteNoField :
    7 ≤ ((0x07FFFFFF : Word).extractLsb' 24 4).toNat ∧ 7 ≤ ((0xCF123456 : Word).extractLsb' 24 4).toNat := by decide

/-- A word of kind 0 is of none of the other six field kinds, and one of kind 7 of none at all. -/
theorem witness_EachFieldIsWrittenByItsKindOnly :
    (Instr.y plain 1).kind ≠ 1 ∧ (Instr.y plain 1).kind ≠ 2 ∧ (Instr.y plain 1).kind ≠ 3 ∧ (Instr.y plain 1).kind ≠ 4 ∧
    (Instr.y plain 1).kind ≠ 5 ∧ (Instr.y plain 1).kind ≠ 6 ∧ (Instr.unk7 plain 1).kind ≠ 0 := by decide

/-- 95_test_vectors.md 2.4: `Y(1).H`, `Y(2).T` in one Event, and `Y(1).H.T`, `Y(2).T` in two. -/
theorem witness_SourceIsTheUnionWithinOneEvent :
    (decode 0x80000002).marks.t = true ∧ (decode 0x20000001).marks.t = false ∧ (decode 0xA0000001).marks.t = true := by
  decide

/-- The block inside DECODE_ONE with one word in `BUF`, without and with a turn of its own on the agenda. -/
theorem witness_StepRunsTheDecodedWord :
    let s : State := { busy (.decode .host .words) with buf := [tag5] }
    s.act = .decode .host .words ∧ s.fin = none ∧ s.buf = tag5 :: [] ∧ s.agenda = [] ∧
    ({ s with agenda := [.block] } : State).agenda = .block :: [] := ⟨rfl, rfl, rfl, rfl, rfl⟩

theorem witness_PlacedWordIsRunByTheNextStep : 0 < 2 ^ 32 ∧ 0xFFFFFFFF < 2 ^ 32 := by decide

/-- Not yet synced, three bytes of a record waiting in `FS.asm`: a READ_N that lacks its only word, and a refill that lacks its last. -/
theorem witness_FrameSyncTakesOneRecord :
    let s : State := { busy (.readN 1 []) with fs := { synced := false, asm := record.take 3 }, rx := record.drop 3 ++ [9] }
    s.agenda = [] ∧ s.fs.asm.length ≤ 7 ∧ s.fs.asm ++ s.rx = record ++ [9] ∧ parseRecord record = .ok tag5 ∧
    s.act = .readN 1 [] ∧ ([] : List RawWord).length < 1 ∧ (List.replicate 99 bare).length < 100 ∧
    ({ s with act := .decode .host (.refill true (List.replicate 99 bare)) } : State).act =
      .decode .host (.refill true (List.replicate 99 bare)) :=
  ⟨rfl, by decide, rfl, rfl, rfl, by decide, by simp, rfl⟩

/-- Seven bytes at hand on an open connection. -/
theorem witness_ReadNWaitsForBytes :
    let s : State := { busy (.readN 1 []) with rx := record.take 7 }
    s.agenda = [] ∧ (s.fs.asm ++ s.rx).length < 8 ∧ s.link = .up ∧
    ((∃ n out, s.act = .readN n out ∧ out.length < n) ∨
      (∃ c atEntry out, s.act = .decode c (.refill atEntry out) ∧ out.length < 100)) :=
  ⟨rfl, by decide, rfl, .inl ⟨1, [], rfl, by decide⟩⟩

/-- A refill one word short, seven bytes at hand, and the connection closed. -/
theorem witness_BrokenTransportHaltsTheBlock :
    let s : State :=
      { busy (.decode (.read one) (.refill true (List.replicate 99 bare))) with link := .ended, rx := record.take 7 }
    s.agenda = [] ∧ (s.fs.asm ++ s.rx).length < 8 ∧ s.link ≠ .up ∧
    ((∃ n out, s.act = .readN n out ∧ out.length < n) ∨
      (∃ c atEntry out, s.act = .decode c (.refill atEntry out) ∧ out.length < 100)) :=
  ⟨rfl, by decide, by decide, .inr ⟨.read one, true, List.replicate 99 bare, rfl, by simp⟩⟩

theorem witness_ReadNOfZeroTouchesNothing :
    let s : State := { up with agenda := [.host (.readN 0)], rx := record }
    s.agenda = [.host (.readN 0)] ∧ s.st.connected = true ∧ s.st.err = 0 ∧ s.st.busy = false ∧ s.act = .idle :=
  ⟨rfl, rfl, rfl, rfl, rfl⟩

/-- A READ_N(1) that has to synchronise first: the marker, the word, the return. -/
theorem witness_ReadNReturnsTheSyncedStream :
    let s : State := { busy (.readN 1 []) with fs := { synced := false, asm := [] }, rx := record ++ record }
    s.agenda = [] ∧ s.act = .readN 1 [] ∧ s.st.err = 0 ∧ 0 < 1 ∧ s.fs.asm.length ≤ 7 ∧
    ∃ t, runFor 3 s = .next t ∧ t.act = .idle ∧ t.st.err = 0 := by
  refine ⟨rfl, rfl, rfl, by decide, by decide, ?_⟩
  obtain ⟨t, h, hp⟩ := of_nextWith (o := runFor 3 { busy (.readN 1 []) with
    fs := { synced := false, asm := [] }, rx := record ++ record }) (p := fun t => t.act == .idle && t.st.err == 0)
    (by decide)
  simp only [Bool.and_eq_true, beq_iff_eq] at hp
  exact ⟨t, h, hp.1, hp.2⟩

/-- The two ways the latch clears: RESET, and a CONNECT that reaches its endpoint. -/
theorem witness_SyncLatchIsMonotonic :
    (∃ t, step { up with agenda := [.host .reset] } = .next t ∧ up.fs.synced = true ∧ t.fs.synced = false) ∧
    (∃ t, step (busy (.connecting true)) = .next t ∧ (busy (.connecting true)).fs.synced = true ∧ t.fs.synced = false) :=
  ⟨⟨_, rfl, rfl, rfl⟩, ⟨_, rfl, rfl, rfl⟩⟩

/-- 9 words and 10 words at the entry, for the host and for a READ that still wants its Event, bounded or not. -/
theorem witness_EntryChecksTheLowWatermark :
    let s : State := { busy (.decode (.read one) .entry) with buf := List.replicate 9 bare }
    s.agenda = [] ∧ s.act = .decode (.read one) .entry ∧
    (∀ cfg, Caller.read one = .read cfg → cfg.unbounded = true ∨ s.lf.count < cfg.n) ∧
    s.buf.length < 10 ∧ ¬ (List.replicate 10 bare).length < 10 ∧
    (∀ cfg, Caller.host = .read cfg → cfg.unbounded = true ∨ s.lf.count < cfg.n) ∧
    (∀ cfg, Caller.read endless = .read cfg → cfg.unbounded = true ∨ s.lf.count < cfg.n) := by
  refine ⟨rfl, rfl, ?_, by decide, by decide, ?_, ?_⟩
  · rintro cfg h
    cases h
    exact .inr (by decide)
  · rintro cfg h
    cases h
  · rintro cfg h
    cases h
    exact .inl rfl

theorem witness_EmptyBufferIsRefilledInsideAnEvent :
    let s : State := busy (.decode .host .words)
    s.agenda = [] ∧ s.act = .decode .host .words ∧ s.fin = none ∧ s.buf = [] := ⟨rfl, rfl, rfl, rfl⟩

theorem witness_RefillAppendsItsBatchInOneStep :
    let s : State := busy (.decode .host (.refill true (List.replicate 100 bare)))
    s.agenda = [] ∧ s.act = .decode .host (.refill true (List.replicate 100 bare)) ∧
    100 ≤ (List.replicate 100 bare).length := ⟨rfl, rfl, by simp⟩

/-- One long Event: a hundred words without `T`, then the refill of the empty buffer. -/
theorem witness_NinetyOneWordsLieBetweenRefills :
    let s : State := { busy (.decode .host .words) with buf := List.replicate 100 bare }
    s.Inv ∧ s.agenda = [] ∧ 100 ≤ s.buf.length ∧
    ∃ t, runFor 101 s = .next t ∧ t.refills = s.refills + 1 ∧ t.act = .decode .host (.refill false []) := by
  refine ⟨inv_busy _ _ (by decide) (by simp) (by simp) (by simp) (by simp), rfl, by simp, ?_⟩
  obtain ⟨t, h, hp⟩ := of_nextWith (o := runFor 101 { busy (.decode .host .words) with buf := List.replicate 100 bare })
    (p := fun t => t.refills == 1 && t.act == .decode .host (.refill false [])) (by decide)
  simp only [Bool.and_eq_true, beq_iff_eq] at hp
  exact ⟨t, h, hp.1, hp.2⟩

/-- The largest occupancy: 9 words and a refill that has its batch. -/
theorem witness_BufferNeverExceedsItsDepth :
    let s : State := { busy (.decode .host (.refill true (List.replicate 100 bare))) with buf := List.replicate 9 bare }
    s.Inv ∧ ∃ t, runFor 1 s = .next t := by
  refine ⟨inv_busy _ _ (by decide) (by simp) (by simp) ?_ (by simp), _, rfl⟩
  intro c atEntry out h
  cases h
  simp

/-- Nine words of the next Event before its terminator. -/
theorem witness_DecodeOneReturnsTheNextEvent :
    let s : State := { busy (.decode .host .entry) with buf := List.replicate 9 bare ++ tag5 :: [] }
    s.agenda = [] ∧ s.act = .decode .host .entry ∧ s.fin = none ∧ s.buf = List.replicate 9 bare ++ tag5 :: [] ∧
    10 ≤ s.buf.length ∧ (∀ r ∈ List.replicate 9 bare, r.word.getLsbD 31 = false) ∧ tag5.word.getLsbD 31 = true := by
  refine ⟨rfl, rfl, rfl, rfl, by decide, ?_, by decide⟩
  intro r hr
  rw [List.eq_of_mem_replicate hr]
  decide

/-- An Event that passes, one that the trigger drops, and one that arms the latch and is dropped by its source. -/
theorem witness_FilterArmsThenAppends :
    let s : State := { busy (.decode (.read (cfgOf true 1 true 2 1)) .words) with fin := some (ev 1 3) }
    s.agenda = [] ∧ s.act = .decode (.read (cfgOf true 1 true 2 1)) .words ∧ s.fin = some (ev 1 3) ∧
    appends false (cfgOf true 1 true 2 1) (ev 1 2) = true ∧ appends false (cfgOf true 1 true 2 1) (ev 0 2) = false ∧
    loggingAfter false (cfgOf true 1 true 2 1) (ev 1 3) = true ∧ appends false (cfgOf true 1 true 2 1) (ev 1 3) = false := by
  refine ⟨rfl, rfl, rfl, ?_⟩
  decide

theorem witness_ReadStartsWithAClearedFilter :
    let s : State := { up with agenda := [.host .read] }
    s.agenda = .host .read :: [] ∧ s.st.connected = true ∧ s.st.err = 0 ∧ s.st.busy = false := ⟨rfl, rfl, rfl, rfl⟩

theorem witness_ReadCompletesByCount :
    let s : State := { busy (.decode (.read one) .entry) with lf := { logging := true, count := 1, result := [ev 0 0] } }
    s.agenda = [] ∧ s.act = .decode (.read one) .entry ∧ one.unbounded = false ∧ one.n ≤ s.lf.count :=
  ⟨rfl, rfl, rfl, by decide⟩

theorem witness_ReadOfZeroReturnsTheEmptyList :
    let s : State := { up with agenda := [.host .read], rx := record }
    s.agenda = [.host .read] ∧ s.st.connected = true ∧ s.st.err = 0 ∧ s.st.busy = false ∧ s.cfg.n = 0 ∧
    s.cfg.unbounded = false := ⟨rfl, rfl, rfl, rfl, rfl, rfl⟩

/-- The unbounded READ goes on, ends by an exception, and ends by RESET. -/
theorem witness_UnboundedReadEndsOnlyByExceptionOrReset :
    (busy (.decode (.read endless) .entry)).Inv ∧ endless.unbounded = true ∧
    (∃ t, step (busy (.decode (.read endless) .entry)) = .next t) ∧
    (busy (.decode (.read endless) (.refill true []))).Inv ∧
    (∃ t, step { busy (.decode (.read endless) (.refill true [])) with link := .ended } = .next t ∧ t.st.err = 2) ∧
    (∃ t, step { busy (.decode (.read endless) .entry) with agenda := [.host .reset] } = .next t ∧ t.act = .idle) := by
  refine ⟨inv_busy _ [] (by decide) (by decide) (by simp) (by simp) (by simp), rfl, ⟨_, rfl⟩,
    inv_busy _ [] (by decide) (by decide) (by simp) ?_ ?_, ⟨_, rfl, rfl⟩, ⟨_, rfl, rfl⟩⟩
  · intro c atEntry out h
    cases h
    simp
  · intro c ph h
    cases h
    simp [endless]

/-- The two ways the latch goes back to 0: RESET, and the start of a READ. -/
theorem witness_TriggerLatchIsMonotonic :
    let s : State := { up with lf := { logging := true, count := 1, result := [ev 0 0] } }
    (∃ t, step { s with agenda := [.host .reset] } = .next t ∧ s.lf.logging = true ∧ t.lf.logging = false) ∧
    (∃ t, step { s with agenda := [.host .read] } = .next t ∧ t.lf.logging = false ∧
      t.act = .decode (.read s.cfg) .entry) := ⟨⟨_, rfl, rfl, rfl⟩, ⟨_, rfl, rfl, rfl⟩⟩

theorem witness_CfgIsSampledOnce :
    let s : State := busy (.decode (.read one) .entry)
    s.Inv ∧ s.act = .decode (.read one) .entry ∧
    ∃ t, step s = .next t ∧ t.act = .decode (.read one) (.refill true []) :=
  ⟨inv_busy _ [] (by decide) (by decide) (by simp) (by simp) (by simp), rfl, _, rfl, rfl⟩

/-- A READ with the last word of its Event in `BUF`. -/
theorem witness_ReadConservesTheEventStream :
    let s : State := { busy (.decode (.read one) .words) with buf := [tag5] }
    s.Inv ∧ s.agenda = [] ∧ s.act = .decode (.read one) .words ∧ ∃ t, step s = .next t ∧ t.st.err = 0 := by
  refine ⟨inv_busy _ _ (by decide) (by decide) (by simp) (by simp) ?_, rfl, rfl, _, rfl, rfl⟩
  intro c ph h
  cases h
  decide

/-- Ten one-word Events in `BUF`: entry, pop, return, entry. -/
theorem witness_ReadReturnsTheFirstFilteredEvents :
    let s : State := { busy (.decode (.read one) .entry) with buf := List.replicate 10 tag5 }
    s.Inv ∧ s.agenda = [] ∧ s.act = .decode (.read one) .entry ∧
    s.lf = { logging := false, count := 0, result := [] } ∧ one.unbounded = false ∧
    ∃ t, runFor 4 s = .next t ∧ t.st.done = true := by
  refine ⟨inv_busy _ _ (by decide) (by decide) (by simp) (by simp) (by simp), rfl, rfl, rfl, rfl, ?_⟩
  exact of_nextWith (p := fun t => t.st.done) (by decide)

/-- An endpoint that can be reached and one that cannot. -/
theorem witness_ConnectOpensAFreshConnectionOrRaises :
    let s : State :=
      { State.reset with reachable := [{ address := 1, port := 2 }], agenda := [.host (.connect { address := 1, port := 2 })] }
    s.agenda = [.host (.connect { address := 1, port := 2 })] ∧ s.st.err = 0 ∧ s.st.busy = false ∧
    (⟨1, 2⟩ : Endpoint) ∈ s.reachable ∧ (⟨1, 3⟩ : Endpoint) ∉ s.reachable := by
  refine ⟨rfl, rfl, rfl, ?_⟩
  decide

/-- A block halted by TransportError, without and with a RESET coming. -/
theorem witness_HaltedBlockStaysHaltedUntilReset :
    let s : State := { up with st := { connected := true, err := 2, done := false, busy := false } }
    s.Inv ∧ s.st.err ≠ 0 ∧ (∃ t, step s = .next t) ∧ (∀ later, s.agenda ≠ .host .reset :: later) ∧
    (∃ t, step { s with agenda := [.host .reset] } = .next t) :=
  ⟨inv_idle _ rfl (by decide) (by decide), by decide, ⟨_, rfl⟩, by simp [up, State.reset], ⟨_, rfl⟩⟩

theorem witness_ResetGivesTheResetValues :
    ({ busy (.readN 1 []) with agenda := [.host .reset] } : State).agenda = .host .reset :: [] := rfl

theorem witness_ResetKeepsTheEnvironment :
    ({ busy (.readN 1 []) with agenda := [.host .reset, .block] } : State).agenda = .host .reset :: [.block] := rfl

/-- A step that raises an exception, and not this one. -/
theorem witness_DesyncTimeoutIsNeverRaised :
    ∃ t, step { busy (.readN 1 []) with link := .ended } = .next t ∧ t.replies = [.raised .transportError] :=
  ⟨_, rfl, rfl⟩

/-- Every condition fails somewhere: not connected, halted, busy, nothing on EVT. -/
theorem witness_RefusedHostActionsHaveNoEffect :
    ¬ accepts .read State.reset ∧ ¬ accepts (.readN 1) { up with st := { up.st with err := 1 } } ∧
    ¬ accepts .decodeOne (busy (.readN 1 [])) ∧ ¬ accepts (.writeCfg (.n 1)) (busy (.readN 1 [])) ∧
    ¬ accepts (.connect ⟨1, 2⟩) (busy (.readN 1 [])) ∧ ¬ accepts .takeEvent State.reset ∧
    ({ State.reset with agenda := [.host .read] } : State).agenda = .host .read :: [] := by
  simp [accepts, State.reset, busy, up]

theorem witness_CfgWritesTakeEffectWhenIdle :
    up.st.busy = false ∧ ({ up with agenda := [.host (.writeCfg (.trigEn true))] } : State).agenda =
      .host (.writeCfg (.trigEn true)) :: [] ∧
    ({ up with agenda := [.host (.writeCfg (.trigCode 0xFFFFFF))] } : State).agenda =
      .host (.writeCfg (.trigCode 0xFFFFFF)) :: [] ∧
    ({ up with agenda := [.host (.writeCfg (.srcEn true))] } : State).agenda = .host (.writeCfg (.srcEn true)) :: [] ∧
    ({ up with agenda := [.host (.writeCfg (.srcVal 3))] } : State).agenda = .host (.writeCfg (.srcVal 3)) :: [] ∧
    ({ up with agenda := [.host (.writeCfg (.n 0))] } : State).agenda = .host (.writeCfg (.n 0)) :: [] ∧
    ({ up with agenda := [.host (.writeCfg (.unbounded true))] } : State).agenda =
      .host (.writeCfg (.unbounded true)) :: [] := ⟨rfl, rfl, rfl, rfl, rfl, rfl, rfl⟩

theorem witness_DirectCommandsHoldBusy :
    up.st.connected = true ∧ up.st.err = 0 ∧ up.st.busy = false ∧
    ({ up with agenda := [.host .decodeOne] } : State).agenda = .host .decodeOne :: [] ∧
    ({ up with agenda := [.host (.readN 0)] } : State).agenda = .host (.readN 0) :: [] := ⟨rfl, rfl, rfl, rfl, rfl⟩

theorem witness_IdleBlockTakesNothing :
    up.Inv ∧ up.st.busy = false ∧ up.agenda = [] ∧ ({ up with agenda := [.block] } : State).agenda = .block :: [] :=
  ⟨inv_idle _ rfl (by decide) (by decide), rfl, rfl, rfl⟩

theorem witness_StatusReadsChangeNothing :
    ({ busy (.readN 1 []) with agenda := [.host .readStatus] } : State).agenda = .host .readStatus :: [] := rfl

/-- A READ of one Event of its own, on EVT behind one of an earlier READ. -/
def reading : State :=
  { busy (.decode (.read endless) (.refill true [])) with
    lf := { logging := true, count := 1, result := [ev 2 0] }, evt := [ev 1 0, ev 2 0], link := .ended }

/-- A transport failure voids the Event of the failed READ only (60_exceptions.md R166). -/
theorem test_void_events : nextWith (step reading) (fun t => t.evt == [ev 1 0] && t.st.err == 2) = true := by decide

/-- The host has taken all but the last of two Events of the READ: that one alone is left to void. -/
theorem test_void_events_partly_taken :
    nextWith (step { reading with evt := [ev 2 0], lf := { logging := true, count := 2, result := [ev 1 0, ev 2 0] } })
      (fun t => t.evt == []) = true := by decide

/-- The first three ways: EVT as it was, an Event appended, an Event taken; and the end of a READ by TransportError and by RESET. -/
theorem witness_EvtIsAQueueOfCopies :
    (∃ t, step up = .next t ∧ t.evt = []) ∧
    (∃ t, step { busy (.decode (.read one) .words) with fin := some (ev 1 0) } = .next t ∧ t.evt = [ev 1 0]) ∧
    (∃ t, step { up with evt := [ev 1 0], agenda := [.host .takeEvent] } = .next t ∧ t.evt = []) ∧
    (∃ t, step reading = .next t ∧ t.evt = [ev 1 0]) ∧
    (∃ t, step { reading with agenda := [.host .reset] } = .next t ∧ t.evt = [ev 1 0]) :=
  ⟨⟨_, rfl, rfl⟩, ⟨_, rfl, rfl⟩, ⟨_, rfl, rfl⟩, ⟨_, rfl, rfl⟩, ⟨_, rfl, rfl⟩⟩

/-- A whole record has arrived, and the host closes the transport. -/
theorem witness_ClosingTheTransportRaisesAtThePendingRxTake :
    let s : State := { busy (.readN 1 []) with agenda := [.host .closeTransport], rx := record }
    s.agenda = [.host .closeTransport] ∧ s.link ≠ .absent ∧ s.fs.asm.length ≤ 7 ∧
    ((∃ n out, s.act = .readN n out ∧ out.length < n) ∨
      (∃ c atEntry out, s.act = .decode c (.refill atEntry out) ∧ out.length < 100)) :=
  ⟨rfl, by decide, by decide, .inl ⟨1, [], rfl, by decide⟩⟩

theorem witness_TransportTurnsChangeTheChannelOnly :
    ({ up with agenda := [.transport (.deliver [1])] } : State).agenda = .transport (.deliver [1]) :: [] ∧
    ({ up with agenda := [.transport .close] } : State).agenda = .transport .close :: [] ∧
    ({ up with agenda := [.transport .fail] } : State).agenda = .transport .fail :: [] ∧ up.link ≠ .absent ∧
    ({ up with agenda := [.transport (.setReachable [])] } : State).agenda = .transport (.setReachable []) :: [] := by
  refine ⟨rfl, rfl, rfl, ?_, rfl⟩
  decide

theorem witness_EveryStepKeepsTheInvariant : up.Inv ∧ ∃ t, step up = .next t :=
  ⟨inv_idle _ rfl (by decide) (by decide), _, rfl⟩

/-- Unsynced, the marker at hand: a READ_N that goes on, one that returns, one that breaks, and a refill that goes on. -/
theorem witness_ReadNTurnConservesTheSyncedStream :
    let s : State := { busy (.readN 1 []) with fs := { synced := false, asm := [] }, rx := record }
    s.agenda = [] ∧ s.fs.asm.length ≤ 7 ∧ (∃ t, step s = .next t ∧ t.act = .readN 1 []) ∧
    (∃ t, step { s with act := .readN 0 [] } = .next t ∧ t.act = .idle) ∧
    (∃ t, step { s with rx := [], link := .ended } = .next t ∧ t.st.err = 2) ∧
    (∃ t, step { s with act := .decode .host (.refill true []) } = .next t ∧ t.act = .decode .host (.refill true [])) :=
  ⟨rfl, by decide, ⟨_, rfl, rfl⟩, ⟨_, rfl, rfl⟩, ⟨_, rfl, rfl⟩, ⟨_, rfl, rfl⟩⟩

end Sys2Proof.Tests
end

section
/-! PROOFS. The statements of spec/00_scope.md: what the block does while no command is in progress. -/

namespace Sys2Proof.Proofs

open Sys2Proof.Machine Sys2Proof.Laws

/-- The invariant ties `ST.busy` to the block's own bookkeeping (10_state.md R19). -/
theorem act_idle_of_not_busy {s : State} (hinv : s.Inv) (hbusy : s.st.busy = false) : s.act = .idle := by
  by_contra hact
  have hset : s.st.busy = true := hinv.busyIff.mpr hact
  simp [hbusy] at hset

theorem blockTurn_of_idle {s : State} (hact : s.act = .idle) : blockTurn s = .next s := by
  simp only [blockTurn, hact]

theorem step_block {s : State} {later : List Turn} (h : s.agenda = .block :: later) :
    step s = blockTurn { s with agenda := later } := by
  rw [step_turn h, turn_block]

/-- Settles O53: `ST.busy` at 0 puts the block's activity at idle by the invariant, and an idle block's turn is the
identity, whether it comes by an empty agenda or from the agenda's front. -/
theorem idleBlockTakesNothing : Obligations.IdleBlockTakesNothing := by
  intro s hinv hbusy
  have hact : s.act = .idle := act_idle_of_not_busy hinv hbusy
  constructor
  · intro hempty
    rw [step_empty hempty, blockTurn_of_idle hact]
  · intro later hfront
    rw [step_block hfront]
    exact blockTurn_of_idle hact

end Sys2Proof.Proofs
end

section
/-! PROOFS. The statements of spec/10_state.md: which register each word, host action and step writes, and the invariant of
the block. -/

namespace Sys2Proof.Proofs

open Sys2Proof.Machine Sys2Proof.Laws

/-! ## Host actions that write one register or none -/

theorem step_host {s : State} {a : HostAct} {later : List Turn} (h : s.agenda = .host a :: later) :
    step s = .next (hostTurn a { s with agenda := later }) := by
  rw [step_turn h, turn_host]

theorem hostTurn_writeCfg {s : State} (hbusy : s.st.busy = false) (w : CfgWrite) :
    hostTurn (.writeCfg w) s = { s with cfg := s.cfg.write w } := by
  simp [hostTurn, hbusy]

theorem step_writeCfg {s : State} {w : CfgWrite} {later : List Turn} (hbusy : s.st.busy = false)
    (h : s.agenda = .host (.writeCfg w) :: later) :
    step s = .next { s with agenda := later, cfg := s.cfg.write w } := by
  have hturn : hostTurn (.writeCfg w) { s with agenda := later } = { s with agenda := later, cfg := s.cfg.write w } :=
    hostTurn_writeCfg (s := { s with agenda := later }) hbusy w
  rw [step_host h, hturn]

/-- Settles O51: an accepted write leaves `Cfg.write`, which is a record update of the one register written. -/
theorem cfgWritesTakeEffectWhenIdle : Obligations.CfgWritesTakeEffectWhenIdle := by
  intro s later hbusy
  refine ⟨?trigEn, ?trigCode, ?srcEn, ?srcVal, ?n, ?unbounded⟩ <;> exact fun _ h => step_writeCfg hbusy h

/-- Settles O54: a status read is a reply and nothing else. -/
theorem statusReadsChangeNothing : Obligations.StatusReadsChangeNothing := by
  intro s later h
  rw [step_host h]
  rfl

/-! ## The field part, the source part and the terminator part of a word -/

theorem fieldPart_y {i : Instr} (h : i.kind ≠ 0) (e : Event) : (fieldPart i e).y = e.y := by
  cases i with
  | y => exact absurd rfl h
  | _ => rfl

theorem fieldPart_err {i : Instr} (h : i.kind ≠ 1) (e : Event) : (fieldPart i e).err = e.err := by
  cases i with
  | err => exact absurd rfl h
  | _ => rfl

theorem fieldPart_tag {i : Instr} (h : i.kind ≠ 2) (e : Event) : (fieldPart i e).tag = e.tag := by
  cases i with
  | tag => exact absurd rfl h
  | _ => rfl

theorem fieldPart_period {i : Instr} (h : i.kind ≠ 3) (e : Event) : (fieldPart i e).period = e.period := by
  cases i with
  | period => exact absurd rfl h
  | _ => rfl

theorem fieldPart_eventCode {i : Instr} (h : i.kind ≠ 4) (e : Event) : (fieldPart i e).eventCode = e.eventCode := by
  cases i with
  | event => exact absurd rfl h
  | _ => rfl

theorem fieldPart_ref {i : Instr} (h : i.kind ≠ 5) (e : Event) : (fieldPart i e).ref = e.ref := by
  cases i with
  | ref => exact absurd rfl h
  | _ => rfl

theorem fieldPart_sampleId {i : Instr} (h : i.kind ≠ 6) (e : Event) : (fieldPart i e).sampleId = e.sampleId := by
  cases i with
  | sampleid => exact absurd rfl h
  | _ => rfl

@[simp] theorem fieldPart_source (i : Instr) (e : Event) : (fieldPart i e).source = e.source := by
  cases i <;> rfl

@[simp] theorem sourceBits_helper (m : Marks) : (sourceBits m)[0] = m.h := by
  simp [sourceBits]

@[simp] theorem sourceBits_prelock (m : Marks) : (sourceBits m)[1] = m.p := by
  simp [sourceBits]

@[simp] theorem sourcePart_source (m : Marks) (e : Event) : (sourcePart m e).source = e.source ||| sourceBits m := rfl

/-- The terminator part decides between two outcomes (42_event_assembly.md R120, R122). -/
theorem finishWord_eq (m : Marks) (field : Event) (s : State) :
    finishWord m field s =
      if m.t then { s with ev := Event.default, fin := some (sourcePart m field) }
      else { s with ev := sourcePart m field } := by
  cases ht : m.t <;> simp [finishWord, ht]

/-- Settles O19: the Event is the source part of the field part, and the field part writes the field of the word's kind
alone. -/
theorem eachFieldIsWrittenByItsKindOnly : Obligations.EachFieldIsWrittenByItsKindOnly := by
  intro i s
  refine ⟨sourcePart i.marks (fieldPart i s.ev), ?runs, fun h => fieldPart_y h _, fun h => fieldPart_err h _,
    fun h => fieldPart_tag h _, fun h => fieldPart_period h _, fun h => fieldPart_eventCode h _,
    fun h => fieldPart_ref h _, fun h => fieldPart_sampleId h _, ?helper, ?prelock⟩
  case runs => rw [exec_eq, finishWord_eq]
  case helper => simp
  case prelock => simp

/-! ## Ranges of Event fields (10_state.md R11) -/

theorem inRange_default : Event.default.InRange := by
  simp [Event.InRange, Event.default]

theorem payload24_le (v : Payload) : (payload24 v).toNat ≤ 0xFFFFFF := by
  have := v.isLt
  simp only [payload24, BitVec.toNat_setWidth]
  omega

theorem payload12_le (v : Payload) : (payload12 v).toNat ≤ 0xFFF := by
  simp only [payload12, BitVec.toNat_setWidth]
  omega

theorem sext24_toInt (v : Payload) : (sext24 v).toInt = v.toInt :=
  BitVec.toInt_signExtend_of_le (by decide)

theorem sext24_range (v : Payload) : -0x800000 ≤ (sext24 v).toInt ∧ (sext24 v).toInt ≤ 0x7FFFFF := by
  have hlow := BitVec.le_toInt v
  have hhigh := BitVec.toInt_lt (x := v)
  rw [sext24_toInt]
  omega

/-- No kind writes a value outside its field's range: the payload is masked or sign-extended first. -/
theorem fieldPart_inRange {e : Event} (he : e.InRange) (i : Instr) : (fieldPart i e).InRange := by
  obtain ⟨hsample, htag, href, hperiod, herr⟩ := he
  cases i with
  | err m v => exact ⟨hsample, htag, href, hperiod, sext24_range v⟩
  | tag m v => exact ⟨hsample, payload24_le v, href, hperiod, herr⟩
  | period m v => exact ⟨hsample, htag, href, payload12_le v, herr⟩
  | ref m v => exact ⟨hsample, htag, payload24_le v, hperiod, herr⟩
  | sampleid m v => exact ⟨payload24_le v, htag, href, hperiod, herr⟩
  | _ => exact ⟨hsample, htag, href, hperiod, herr⟩

theorem wordEvent_inRange {e : Event} (he : e.InRange) (V : Word) : (wordEvent V e).InRange :=
  fieldPart_inRange he (decode V)

/-- Settles O58: at reset nothing runs and nothing is held. -/
theorem invariantHoldsAtReset : Obligations.InvariantHoldsAtReset where
  errLegal := by decide
  busyIff := by decide
  haltedIdle := fun _ => rfl
  needsConnected := nofun
  connectedLink := nofun
  doneQuiet := nofun
  asmShort := Nat.zero_le _
  asmEmpty := fun _ => rfl
  bufBound := Nat.zero_le _
  unsyncedEmpty := fun _ => ⟨rfl, rfl⟩
  readNBound := nofun
  refillBound := nofun
  evBoundary := fun _ _ => rfl
  finBoundary := fun h => absurd rfl h
  countResult := rfl
  readBound := nofun
  evRange := inRange_default
  finRange := nofun
  resultRange := nofun
  evtRange := nofun
  repliesRange := nofun
  readEvents := nofun

/-! ## What the invariant says of a command in progress -/

section
variable {s : State}

theorem err_zero_of_busy (h : s.Inv) (hact : s.act ≠ .idle) : s.st.err = 0 := by
  by_contra herr
  exact hact (h.haltedIdle herr)

theorem fin_none_of_not_words (h : s.Inv) (hact : ∀ c, s.act ≠ .decode c .words) : s.fin = none := by
  by_contra hfin
  obtain ⟨-, c, hc⟩ := h.finBoundary hfin
  exact hact c hc

/-! ## Changes that leave the command in progress where it stands -/

theorem inv_agenda (h : s.Inv) (later : List Turn) : ({ s with agenda := later } : State).Inv := { h with }

theorem inv_reply (h : s.Inv) {r : Reply} (hr : r.InRange) : (reply r s).Inv :=
  { h with
    repliesRange := List.forall_mem_append.2 ⟨h.repliesRange, List.forall_mem_singleton.2 hr⟩ }

/-- The Events of the READ that are still on EVT stay the last of its result when the host takes the oldest. -/
theorem drop_tail_suffix {e : Event} {rest result : List Event} {count : Nat}
    (h : (e :: rest).drop ((e :: rest).length - count) <:+ result) :
    rest.drop (rest.length - count) <:+ result := by
  refine List.IsSuffix.trans ?_ h
  by_cases hc : count ≤ rest.length
  · have hlen : (e :: rest).length - count = rest.length - count + 1 := by
      simp only [List.length_cons]
      omega
    rw [hlen, List.drop_succ_cons]
  · have hzero : (e :: rest).length - count = 0 := by
      simp only [List.length_cons]
      omega
    rw [hzero, List.drop_zero]
    exact (List.drop_suffix _ _).trans (List.suffix_cons _ _)

theorem inv_takeEvent (h : s.Inv) {e : Event} {rest : List Event} (hevt : s.evt = e :: rest) :
    ({ s with evt := rest, replies := s.replies ++ [.taken e] } : State).Inv := by
  obtain ⟨he, hrest⟩ := List.forall_mem_cons.1 (hevt ▸ h.evtRange)
  have htaken : (reply (.taken e) s).Inv := inv_reply h he
  exact { htaken with
    evtRange := hrest
    readEvents := fun c ph hact => drop_tail_suffix (hevt ▸ h.readEvents c ph hact) }

/-- A connection that has ended is a connection still. -/
theorem inv_linkEnded (h : s.Inv) (rx : List Byte) : ({ s with link := .ended, rx := rx } : State).Inv :=
  { h with connectedLink := fun _ => nofun }

/-! ## A command starts -/

/-- Where a command stands when it starts (60_exceptions.md R176). -/
inductive IsStart : Activity → Prop
  | connecting (reached : Bool) : IsStart (.connecting reached)
  | readN (n : Nat) : IsStart (.readN n [])
  | decode (c : Caller) : IsStart (.decode c .entry)

theorem inv_startCommand {a : Activity} (h : s.Inv) (hidle : s.act = .idle) (herr : s.st.err = 0) (ha : IsStart a)
    (hconn : a.needsConnection = true → s.st.connected = true)
    (hread : ∀ c ph, a = .decode (.read c) ph → s.st.done = false ∧ s.lf.count = 0) : (startCommand a s).Inv :=
  { h with
    busyIff := by cases ha <;> simp
    haltedIdle := fun hne => absurd herr hne
    needsConnected := hconn
    doneQuiet := fun hdone => ⟨herr, fun c ph hact => by simp [hread c ph hact] at hdone⟩
    asmEmpty := fun _ => h.asmEmpty (by rw [hidle]; rfl)
    unsyncedEmpty := fun hsync => ⟨(h.unsyncedEmpty hsync).1, by cases ha <;> rfl⟩
    readNBound := by cases ha <;> simp
    refillBound := by cases ha <;> simp
    evBoundary := fun _ _ => h.evBoundary herr (by rw [hidle]; rfl)
    finBoundary := fun hfin => absurd (fin_none_of_not_words h (by simp [hidle])) hfin
    readBound := fun c ph hact _ => by
      have hcount : s.lf.count = 0 := (hread c ph hact).2
      have hentry : ph = .entry := by
        cases ha with
        | decode =>
          cases hact
          rfl
        | _ => cases hact
      exact ⟨by simp [hcount], fun hne => absurd hentry hne⟩
    readEvents := fun c ph hact => by simp [hread c ph hact] }

/-- READ clears LF and `ST.done` before it starts (43_lock_cycle_filter.md R145). -/
theorem inv_startRead (h : s.Inv) (hidle : s.act = .idle) (herr : s.st.err = 0) (hconn : s.st.connected = true) :
    (startRead s).Inv := by
  have hcleared : ({ s with
      st := { s.st with done := false }, lf := { logging := false, count := 0, result := [] } } : State).Inv :=
    { h with
      doneQuiet := nofun
      countResult := rfl
      readBound := by simp [hidle]
      resultRange := nofun
      readEvents := by simp [hidle] }
  exact inv_startCommand hcleared hidle herr (.decode (.read s.cfg)) (fun _ => hconn) (fun _ _ _ => ⟨rfl, rfl⟩)

/-! ## A command ends -/

/-- The block falls idle, with any legal error code and with `ST.done` at 0 if that code is not 0. -/
theorem inv_idle_of {err : BitVec 2} {done : Bool} (h : s.Inv) (herr : err ≠ 3) (hdone : done = true → err = 0)
    (hasm : s.fs.asm = []) (hev : err = 0 → s.ev = Event.default) (hfin : s.fin = none) :
    ({ s with st := { s.st with err := err, done := done, busy := false }, act := .idle } : State).Inv :=
  { h with
    errLegal := herr
    busyIff := by simp
    haltedIdle := fun _ => rfl
    needsConnected := nofun
    doneQuiet := fun hd => ⟨hdone hd, nofun⟩
    asmEmpty := fun _ => hasm
    unsyncedEmpty := fun hsync => ⟨(h.unsyncedEmpty hsync).1, rfl⟩
    readNBound := nofun
    refillBound := nofun
    evBoundary := fun he _ => hev he
    finBoundary := fun hne => absurd hfin hne
    readBound := nofun
    readEvents := nofun }

theorem inv_commandReturn {r : Reply} (h : s.Inv) (hact : s.act ≠ .idle) (hasm : s.fs.asm = [])
    (hev : s.ev = Event.default) (hfin : s.fin = none) (hr : r.InRange) : (commandReturn r s).Inv :=
  inv_reply (inv_idle_of h h.errLegal (fun _ => err_zero_of_busy h hact) hasm (fun _ => hev) hfin) hr

theorem inv_raise {x : Exc} (h : s.Inv) (hx : x ≠ .desyncTimeout) (hasm : s.fs.asm = []) (hfin : s.fin = none) :
    (raise x s).Inv := by
  have hlegal : x.code ≠ 3 ∧ x.code ≠ 0 := by
    cases x with
    | desyncTimeout => exact absurd rfl hx
    | _ => decide
  have hidle := inv_idle_of h hlegal.1 (done := false) nofun hasm (fun hzero => absurd hzero hlegal.2) hfin
  have hraised := inv_reply hidle (r := .raised x) trivial
  exact { hraised with
    evtRange := fun e he => h.evtRange e (mem_of_mem_validEvents he)
    readEvents := nofun }

theorem inv_resetBlock (h : s.Inv) : (resetBlock s).Inv :=
  { invariantHoldsAtReset with
    evtRange := fun e he => h.evtRange e (mem_of_mem_validEvents he)
    repliesRange := h.repliesRange
    readEvents := nofun }

theorem inv_connectTurn {reached : Bool} (h : s.Inv) (hact : s.act = .connecting reached) :
    (connectTurn reached s).Inv := by
  have hbusy : s.act ≠ .idle := by simp [hact]
  cases reached with
  | false =>
    have hasm : s.fs.asm = [] := h.asmEmpty (by rw [hact]; rfl)
    exact inv_raise h nofun hasm (fin_none_of_not_words h (by simp [hact]))
  | true =>
    have hfresh : ({ s with
        fs := { synced := false, asm := [] }
        buf := []
        ev := Event.default
        st := { s.st with connected := true }
        fin := none
        rx := []
        link := .up
        rxRecords := 0
        refills := 0 } : State).Inv :=
      { h with
        needsConnected := fun _ => rfl
        connectedLink := fun _ => nofun
        asmShort := Nat.zero_le _
        asmEmpty := fun _ => rfl
        bufBound := Nat.zero_le _
        unsyncedEmpty := fun _ => ⟨rfl, by simp [hact, Activity.collected]⟩
        refillBound := by simp [hact]
        evBoundary := fun _ _ => rfl
        finBoundary := fun hne => absurd rfl hne
        evRange := inRange_default
        finRange := nofun }
    exact inv_commandReturn hfresh hbusy rfl rfl rfl trivial

/-! ## READ_N -/

theorem takesRecords_readN {n : Nat} {out : List RawWord} :
    (Activity.readN n out).takesRecords = true ↔ out.length < n := decide_eq_true_iff

theorem takesRecords_readN_false {n : Nat} {out : List RawWord} :
    (Activity.readN n out).takesRecords = false ↔ n ≤ out.length := decide_eq_false_iff_not.trans Nat.not_lt

theorem takesRecords_refill {c : Caller} {atEntry : Bool} {out : List RawWord} :
    (Activity.decode c (.refill atEntry out)).takesRecords = true ↔ out.length < Config.refillBatch :=
  decide_eq_true_iff

theorem takesRecords_refill_false {c : Caller} {atEntry : Bool} {out : List RawWord} :
    (Activity.decode c (.refill atEntry out)).takesRecords = false ↔ Config.refillBatch ≤ out.length :=
  decide_eq_false_iff_not.trans Nat.not_lt

/-- FS moves while the READ_N in progress still lacks words: `FS.synced` is never cleared. -/
theorem inv_fs {fs : FrameSync} (h : s.Inv) (htakes : s.act.takesRecords = true) (hasm : fs.asm.length ≤ 7)
    (hsync : fs.synced = false → s.fs.synced = false) (rx : List Byte) (k : Nat) :
    ({ s with fs := fs, rx := rx, rxRecords := k } : State).Inv :=
  { h with
    asmShort := hasm
    asmEmpty := fun hno => absurd (htakes.symm.trans hno) nofun
    unsyncedEmpty := fun hun => h.unsyncedEmpty (hsync hun) }

/-- One turn of READ_N(n) that takes FS from `fs` to `fs'` and the output from `out` to `out'`, in what it means for the
invariant (10_state.md R26, 40_frame_sync.md R81 to R85, R90). -/
structure Collects (n : Nat) (fs : FrameSync) (out : List RawWord) (fs' : FrameSync) (out' : List RawWord) : Prop where
  lacking : out.length < n
  bound : out'.length ≤ n
  asmShort : fs'.asm.length ≤ 7
  asmEmpty : n ≤ out'.length → fs'.asm = []
  unsynced : fs'.synced = false → fs.synced = false ∧ out' = out

theorem collects_record {n : Nat} {out : List RawWord} (hlack : out.length < n) (fs : FrameSync) (w : RawWord) :
    Collects n fs out { synced := syncedAfter fs.synced w.word, asm := [] } (out ++ fsOutput fs.synced w) where
  lacking := hlack
  bound := by
    cases fs.synced <;> simp [fsOutput] <;> omega
  asmShort := Nat.zero_le _
  asmEmpty := fun _ => rfl
  unsynced := by
    intro hun
    have hfs : fs.synced = false := (Bool.or_eq_false_iff.1 hun).1
    exact ⟨hfs, by simp [fsOutput, hfs]⟩

theorem collects_wait {n : Nat} {out : List RawWord} (hlack : out.length < n) (fs : FrameSync) {asm : List Byte}
    (hasm : asm.length < 8) : Collects n fs out { fs with asm := asm } out where
  lacking := hlack
  bound := hlack.le
  asmShort := Nat.le_of_lt_succ hasm
  asmEmpty := fun hfull => absurd hlack (Nat.not_lt.2 hfull)
  unsynced := fun hun => ⟨hun, rfl⟩

theorem readNTurn_collects (n : Nat) (out : List RawWord) (hasm : s.fs.asm.length ≤ 7) :
    (n ≤ out.length ∧ readNTurn n out s = .returned s) ∨
    (∃ fs' out' rx k, Collects n s.fs out fs' out' ∧
      readNTurn n out s = .going out' { s with fs := fs', rx := rx, rxRecords := k }) ∨
    (out.length < n ∧ readNTurn n out s = .failed { s with fs := { s.fs with asm := [] }, rx := [] }) := by
  rcases readNTurn_cases (n := n) (out := out) (Nat.le_succ_of_le hasm) with
    hreturned | ⟨hlack, w, _, rest, -, -, heq⟩ | ⟨hlack, hshort, -, heq⟩ | ⟨hlack, -, -, heq⟩
  · exact .inl hreturned
  · exact .inr (.inl ⟨_, _, rest, _, collects_record hlack s.fs w, heq⟩)
  · exact .inr (.inl ⟨_, _, [], s.rxRecords, collects_wait hlack s.fs hshort, heq⟩)
  · exact .inr (.inr ⟨hlack, heq⟩)

/-- `RxTake` raised: the bytes of the incomplete record are lost (60_exceptions.md R162). -/
theorem inv_raise_transportError (h : s.Inv) (htakes : s.act.takesRecords = true) :
    (raise .transportError { s with fs := { s.fs with asm := [] }, rx := [] }).Inv := by
  have hlost : ({ s with fs := { s.fs with asm := [] }, rx := [] } : State).Inv :=
    inv_fs (fs := { s.fs with asm := [] }) h htakes (Nat.zero_le _) id [] s.rxRecords
  have hfin : s.fin = none := fin_none_of_not_words h fun c hwords => by
    rw [hwords] at htakes
    cases htakes
  exact inv_raise hlost nofun rfl hfin

theorem inv_hostReadNTurn {n : Nat} {out : List RawWord} (h : s.Inv) (hact : s.act = .readN n out) :
    (hostReadNTurn n out s).Inv := by
  have hfin : s.fin = none := fin_none_of_not_words h (by simp [hact])
  have hbusy : s.act ≠ .idle := by simp [hact]
  have hev : s.ev = Event.default := h.evBoundary (err_zero_of_busy h hbusy) (by rw [hact]; rfl)
  have htakes (hlack : out.length < n) : s.act.takesRecords = true := hact ▸ takesRecords_readN.2 hlack
  rcases readNTurn_collects n out h.asmShort with ⟨hfull, heq⟩ | ⟨fs', out', rx, k, hc, heq⟩ | ⟨hlack, heq⟩
  · rw [hostReadNTurn, heq]
    have hasm : s.fs.asm = [] := h.asmEmpty (hact ▸ takesRecords_readN_false.2 hfull)
    exact inv_commandReturn h hbusy hasm hev hfin trivial
  · rw [hostReadNTurn, heq]
    have hmoved := inv_fs h (htakes hc.lacking) hc.asmShort (fun hun => (hc.unsynced hun).1) rx k
    exact { hmoved with
      busyIff := by simp [h.busyIff, hact]
      haltedIdle := fun hne => absurd (err_zero_of_busy h hbusy) hne
      needsConnected := fun _ => h.needsConnected (by rw [hact]; rfl)
      doneQuiet := fun hd => ⟨(h.doneQuiet hd).1, nofun⟩
      asmEmpty := fun hno => hc.asmEmpty (takesRecords_readN_false.1 hno)
      unsyncedEmpty := fun hun => by
        obtain ⟨hs, rfl⟩ := hc.unsynced hun
        simpa [hact] using h.unsyncedEmpty hs
      readNBound := fun n' o heq => by
        cases heq
        exact hc.bound
      refillBound := nofun
      evBoundary := fun _ _ => hev
      finBoundary := fun hne => absurd hfin hne
      readBound := nofun
      readEvents := nofun }
  · rw [hostReadNTurn, heq]
    exact inv_raise_transportError h (htakes hlack)

/-! ## DECODE_ONE -/

/-- DECODE_ONE goes on to another phase: what depends on the caller alone is kept, the rest is asked of the new phase. -/
theorem inv_phase {c : Caller} {ph ph' : Phase} (h : s.Inv) (hact : s.act = .decode c ph)
    (hasm : (Activity.decode c ph').takesRecords = false → s.fs.asm = [])
    (hout : s.fs.synced = false → (Activity.decode c ph').collected = [])
    (hrefill : ∀ atEntry out, ph' = .refill atEntry out →
      out.length ≤ Config.refillBatch ∧ s.buf.length < Config.lowWatermark ∧ (atEntry = false → s.buf = []))
    (hev : (Activity.decode c ph').insideEvent = false → s.ev = Event.default)
    (hfin : s.fin = none)
    (hcount : ∀ r, c = .read r → r.unbounded = false → ph' ≠ .entry → s.lf.count < r.n) :
    ({ s with act := .decode c ph' } : State).Inv :=
  { h with
    busyIff := by simp [h.busyIff, hact]
    haltedIdle := fun hne => absurd (err_zero_of_busy h (by simp [hact])) hne
    needsConnected := fun _ => h.needsConnected (by rw [hact]; rfl)
    doneQuiet := fun hd => ⟨(h.doneQuiet hd).1, fun r _ heq => by
      cases heq
      exact (h.doneQuiet hd).2 r ph hact⟩
    asmEmpty := hasm
    unsyncedEmpty := fun hun => ⟨(h.unsyncedEmpty hun).1, hout hun⟩
    readNBound := nofun
    refillBound := fun _ atEntry out heq => by
      cases heq
      exact hrefill atEntry out rfl
    evBoundary := fun _ => hev
    finBoundary := fun hne => absurd hfin hne
    readBound := fun r _ heq hbounded => by
      cases heq
      exact ⟨(h.readBound r ph hact hbounded).1, hcount r rfl hbounded⟩
    readEvents := fun r _ heq => by
      cases heq
      exact h.readEvents r ph hact }

/-- Past the entry a bounded READ lacks an Event, because the loop test let it in (43_lock_cycle_filter.md R145). -/
theorem count_lt_of_past_entry {c : Caller} {ph : Phase} (h : s.Inv) (hact : s.act = .decode c ph) (hph : ph ≠ .entry) :
    ∀ r, c = .read r → r.unbounded = false → s.lf.count < r.n := by
  rintro r rfl hbounded
  exact (h.readBound r ph hact hbounded).2 hph

theorem count_lt_of_callerWants {c : Caller} (hwants : callerWants c s = true) :
    ∀ r, c = .read r → r.unbounded = false → s.lf.count < r.n := by
  rintro r rfl hbounded
  simpa [callerWants, wantsMore, hbounded] using hwants

theorem inv_startRefill {c : Caller} {ph : Phase} {atEntry : Bool} (h : s.Inv) (hact : s.act = .decode c ph)
    (hbuf : s.buf.length < Config.lowWatermark) (hempty : atEntry = false → s.buf = [])
    (hev : atEntry = true → s.ev = Event.default) (hasm : s.fs.asm = []) (hfin : s.fin = none)
    (hcount : ∀ r, c = .read r → r.unbounded = false → s.lf.count < r.n) : (startRefill c atEntry s).Inv := by
  have hphase : ({ s with act := .decode c (.refill atEntry []) } : State).Inv := by
    refine inv_phase h hact (fun _ => hasm) (fun _ => rfl) ?_ ?_ hfin (fun r hr hb _ => hcount r hr hb)
    · intro b out heq
      cases heq
      exact ⟨Nat.zero_le _, hbuf, hempty⟩
    · simpa [Activity.insideEvent] using hev
  exact { hphase with }

theorem inv_words {c : Caller} {ph : Phase} (h : s.Inv) (hact : s.act = .decode c ph) (hasm : s.fs.asm = [])
    (hfin : s.fin = none) (hcount : ∀ r, c = .read r → r.unbounded = false → s.lf.count < r.n) :
    ({ s with act := .decode c .words } : State).Inv :=
  inv_phase h hact (fun _ => hasm) (fun _ => rfl) nofun nofun hfin (fun r hr hb _ => hcount r hr hb)

theorem inv_entryTurn {c : Caller} (h : s.Inv) (hact : s.act = .decode c .entry) : (entryTurn c s).Inv := by
  have hbusy : s.act ≠ .idle := by simp [hact]
  have herr : s.st.err = 0 := err_zero_of_busy h hbusy
  have hasm : s.fs.asm = [] := h.asmEmpty (by rw [hact]; rfl)
  have hev : s.ev = Event.default := h.evBoundary herr (by rw [hact]; rfl)
  have hfin : s.fin = none := fin_none_of_not_words h (by simp [hact])
  rcases entryTurn_cases c s with ⟨hwants, hbuf, heq⟩ | ⟨hwants, -, heq⟩ | ⟨-, heq⟩
  · rw [heq]
    exact inv_startRefill h hact hbuf nofun (fun _ => hev) hasm hfin (count_lt_of_callerWants hwants)
  · rw [heq]
    have hwords := inv_words h hact hasm hfin (count_lt_of_callerWants hwants)
    exact { hwords with
      evBoundary := nofun
      finBoundary := fun hne => absurd hfin hne
      evRange := inRange_default }
  · rw [heq]
    have hdone := inv_idle_of h h.errLegal (done := true) (fun _ => herr) hasm (fun _ => hev) hfin
    exact inv_reply hdone h.resultRange

theorem inv_fifoPush {ws : List RawWord} (h : s.Inv) (hbound : (s.buf ++ ws).length ≤ Config.fifoDepth)
    (hout : s.fs.synced = false → ws = []) (hrefill : ∀ c atEntry out, s.act ≠ .decode c (.refill atEntry out)) :
    (fifoPush ws s).Inv :=
  { h with
    bufBound := hbound
    unsyncedEmpty := fun hun => by
      obtain ⟨hbuf, hcol⟩ := h.unsyncedEmpty hun
      exact ⟨by simp [hbuf, hout hun], hcol⟩
    refillBound := fun c atEntry out hact => absurd hact (hrefill c atEntry out) }

/-- The batch is appended: at most 9 words were there at an entry, none inside an Event (10_state.md R24). -/
theorem inv_refillReturned {c : Caller} {atEntry : Bool} {out : List RawWord} (h : s.Inv)
    (hact : s.act = .decode c (.refill atEntry out)) (hfull : Config.refillBatch ≤ out.length) :
    (fifoPush out { s with act := .decode c .words }).Inv := by
  obtain ⟨hbatch, hbuf, -⟩ := h.refillBound c atEntry out hact
  have hasm : s.fs.asm = [] := h.asmEmpty (hact ▸ takesRecords_refill_false.2 hfull)
  have hwords := inv_words h hact hasm (fin_none_of_not_words h (by simp [hact]))
    (count_lt_of_past_entry h hact nofun)
  refine inv_fifoPush hwords ?_ (fun hun => ?_) (by simp)
  · simp only [List.length_append, Config.fifoDepth_eq, Config.refillBatch_eq, Config.lowWatermark_eq] at hbatch hbuf ⊢
    omega
  · simpa [hact, Activity.collected] using (h.unsyncedEmpty hun).2

theorem inv_refillTurn {c : Caller} {atEntry : Bool} {out : List RawWord} (h : s.Inv)
    (hact : s.act = .decode c (.refill atEntry out)) : (refillTurn c atEntry out s).Inv := by
  have hfin : s.fin = none := fin_none_of_not_words h (by simp [hact])
  have hev : atEntry = true → s.ev = Event.default := fun hentry =>
    h.evBoundary (err_zero_of_busy h (by simp [hact])) (by simp [hact, hentry, Activity.insideEvent])
  have htakes (hlack : out.length < Config.refillBatch) : s.act.takesRecords = true :=
    hact ▸ takesRecords_refill.2 hlack
  rcases readNTurn_collects Config.refillBatch out h.asmShort with
    ⟨hfull, heq⟩ | ⟨fs', out', rx, k, hc, heq⟩ | ⟨hlack, heq⟩
  · have hpushed := inv_refillReturned h hact hfull
    cases atEntry with
    | false =>
      have hgoesOn : refillTurn c false out s = fifoPush out { s with act := .decode c .words } := by
        rw [refillTurn, heq]
        rfl
      exact hgoesOn ▸ hpushed
    | true =>
      have hstarts : refillTurn c true out s = fifoPush out { s with act := .decode c .words } := by
        simp only [refillTurn, heq, if_true, startWords, fifoPush, hev rfl]
      exact hstarts ▸ hpushed
  · rw [refillTurn, heq]
    obtain ⟨-, hbuf, hempty⟩ := h.refillBound c atEntry out hact
    have hmoved := inv_fs h (htakes hc.lacking) hc.asmShort (fun hun => (hc.unsynced hun).1) rx k
    refine inv_phase hmoved hact ?_ ?_ ?_ ?_ hfin (fun r hr hb _ => count_lt_of_past_entry h hact nofun r hr hb)
    · exact fun hno => hc.asmEmpty (takesRecords_refill_false.1 hno)
    · intro hun
      obtain ⟨hs, rfl⟩ := hc.unsynced hun
      simpa [hact] using (h.unsyncedEmpty hs).2
    · intro b o heq
      cases heq
      exact ⟨hc.bound, hbuf, hempty⟩
    · simpa [Activity.insideEvent] using hev
  · rw [refillTurn, heq]
    exact inv_raise_transportError h (htakes hlack)

/-! ## Words, Events and LF -/

theorem inv_popWord {c : Caller} {w : RawWord} {rest : List RawWord} (h : s.Inv) (hact : s.act = .decode c .words)
    (hbuf : s.buf = w :: rest) :
    ({ s with
      buf := rest
      ev := if terminatorBit w.word then Event.default else wordEvent w.word s.ev
      fin := if terminatorBit w.word then some (wordEvent w.word s.ev) else none } : State).Inv := by
  have hrange : (wordEvent w.word s.ev).InRange := wordEvent_inRange h.evRange w.word
  have hrest : rest.length ≤ Config.fifoDepth := by
    have hbound := h.bufBound
    rw [hbuf, List.length_cons] at hbound
    omega
  exact { h with
    bufBound := hrest
    unsyncedEmpty := fun hun => absurd (hbuf.symm.trans (h.unsyncedEmpty hun).1) nofun
    refillBound := by simp [hact]
    evBoundary := by simp [hact, Activity.insideEvent]
    finBoundary := by
      cases terminatorBit w.word with
      | false => exact fun hne => absurd rfl hne
      | true => exact fun _ => ⟨rfl, c, hact⟩
    evRange := by
      cases terminatorBit w.word with
      | false => exact hrange
      | true => exact inRange_default
    finRange := by
      cases terminatorBit w.word with
      | false => nofun
      | true =>
        rintro e ⟨⟩
        exact hrange }

/-- The Events of the READ that are still on EVT stay the last of its result when LF appends one to both. -/
theorem drop_concat_suffix {e : Event} {evt result : List Event} {count : Nat}
    (h : evt.drop (evt.length - count) <:+ result) :
    (evt ++ [e]).drop ((evt ++ [e]).length - (count + 1)) <:+ result ++ [e] := by
  obtain ⟨earlier, rfl⟩ := h
  rw [List.length_append, List.length_singleton, Nat.add_sub_add_right,
    List.drop_append_of_le_length (Nat.sub_le _ _)]
  exact ⟨earlier, (List.append_assoc _ _ _).symm⟩

/-- LF counts, keeps and emits the same Event, so EVT and the result grow alike (43_lock_cycle_filter.md R140, R142). -/
theorem inv_lfStep {c : Cfg} {e : Event} (h : s.Inv) (hact : s.act = .decode (.read c) .entry)
    (hcount : c.unbounded = false → s.lf.count < c.n) (he : e.InRange) : (lfStep c e s).Inv := by
  by_cases happ : appends s.lf.logging c e = true
  · exact { h with
      countResult := by simp [happ, h.countResult]
      readBound := fun r ph heq hbounded => by
        cases hact.symm.trans heq
        exact ⟨by simpa [happ] using hcount hbounded, fun hne => absurd rfl hne⟩
      resultRange := by
        simpa [happ] using List.forall_mem_append.2 ⟨h.resultRange, List.forall_mem_singleton.2 he⟩
      evtRange := by
        simpa [happ] using List.forall_mem_append.2 ⟨h.evtRange, List.forall_mem_singleton.2 he⟩
      readEvents := fun r ph heq => by
        have hold := h.readEvents r ph heq
        simpa [happ] using drop_concat_suffix hold }
  · exact { h with
      countResult := by simp [happ, h.countResult]
      readBound := fun r ph heq hbounded => by simpa [happ] using h.readBound r ph heq hbounded
      resultRange := by simpa [happ] using h.resultRange
      evtRange := by simpa [happ] using h.evtRange
      readEvents := fun r ph heq => by simpa [happ] using h.readEvents r ph heq }

theorem inv_deliver {c : Caller} {e : Event} (h : s.Inv) (hact : s.act = .decode c .words) (hfin : s.fin = some e) :
    (deliver c e s).Inv := by
  have hev : s.ev = Event.default := (h.finBoundary (by simp [hfin])).1
  have hasm : s.fs.asm = [] := h.asmEmpty (by rw [hact]; rfl)
  have he : e.InRange := h.finRange e hfin
  have htaken : ({ s with fin := none } : State).Inv :=
    { h with
      finBoundary := fun hne => absurd rfl hne
      finRange := nofun }
  cases c with
  | host => exact inv_commandReturn htaken (by simp [hact]) hasm hev rfl he
  | read r =>
    have hentry : ({ s with fin := none, act := .decode (.read r) .entry } : State).Inv :=
      inv_phase htaken hact (fun _ => hasm) (fun _ => rfl) nofun (fun _ => hev) rfl (fun _ _ _ hne => absurd rfl hne)
    exact inv_lfStep hentry rfl (count_lt_of_past_entry h hact nofun r rfl) he

/-! ## Every turn -/

theorem inv_hostTurn (h : s.Inv) (a : HostAct) : (hostTurn a s).Inv := by
  rcases hostTurn_cases a s with heq | ⟨-, heq⟩ | ⟨ep, -, herr, hbusy, heq⟩ | ⟨w, -, -, heq⟩ |
    ⟨-, hconn, herr, hbusy, heq⟩ | ⟨-, hconn, herr, hbusy, heq⟩ | ⟨n, -, hconn, herr, hbusy, heq⟩ | ⟨-, heq⟩ |
    ⟨e, rest, -, hevt, heq⟩ | ⟨-, -, heq⟩ <;> rw [heq]
  · exact h
  · exact inv_resetBlock h
  · exact inv_startCommand h (act_idle_of_not_busy h hbusy) herr (.connecting _) nofun nofun
  · exact { h with }
  · exact inv_startRead h (act_idle_of_not_busy h hbusy) herr hconn
  · exact inv_startCommand h (act_idle_of_not_busy h hbusy) herr (.decode .host) (fun _ => hconn) nofun
  · exact inv_startCommand h (act_idle_of_not_busy h hbusy) herr (.readN n) (fun _ => hconn) nofun
  · exact inv_reply h trivial
  · exact inv_takeEvent h hevt
  · exact inv_linkEnded h []

theorem inv_transportTurn (h : s.Inv) (a : TransportAct) : (transportTurn a s).Inv := by
  rcases transportTurn_cases a s with heq | ⟨eps, -, heq⟩ | ⟨bytes, -, -, heq⟩ | ⟨-, -, heq⟩ | ⟨-, -, heq⟩ <;> rw [heq]
  · exact h
  · exact { h with }
  · exact { h with }
  · exact inv_linkEnded h s.rx
  · exact inv_linkEnded h []

theorem inv_blockTurn {t : State} (h : s.Inv) (hturn : blockTurn s = .next t) : t.Inv := by
  rcases blockTurn_cases s with ⟨-, heq⟩ | ⟨reached, hact, heq⟩ | ⟨n, out, hact, heq⟩ | ⟨c, hact, heq⟩ |
    ⟨c, atEntry, out, hact, heq⟩ | ⟨c, e, hact, hfin, heq⟩ | ⟨c, hact, hfin, hbuf, heq⟩ |
    ⟨c, w, rest, hact, -, hbuf, heq⟩ <;> cases heq.symm.trans hturn
  · exact h
  · exact inv_connectTurn h hact
  · exact inv_hostReadNTurn h hact
  · exact inv_entryTurn h hact
  · exact inv_refillTurn h hact
  · exact inv_deliver h hact hfin
  · exact inv_startRefill h hact (by simp [hbuf]) (fun _ => hbuf) nofun (h.asmEmpty (by rw [hact]; rfl)) hfin
      (count_lt_of_past_entry h hact nofun)
  · exact inv_popWord h hact hbuf

end

/-- Settles O59: the agenda is no part of the invariant, and each agent's turn keeps it. -/
theorem everyStepKeepsTheInvariant : Obligations.EveryStepKeepsTheInvariant := by
  intro s t h hstep
  rcases step_cases s with ⟨s0, hagenda, heq⟩ | ⟨a, rest, -, heq⟩ | ⟨a, rest, -, heq⟩
  · have h0 : s0.Inv := by
      rcases hagenda with ⟨-, rfl⟩ | ⟨later, -, rfl⟩
      · exact h
      · exact inv_agenda h later
    exact inv_blockTurn h0 (heq.symm.trans hstep)
  · cases heq.symm.trans hstep
    exact inv_hostTurn (inv_agenda h rest) a
  · cases heq.symm.trans hstep
    exact inv_transportTurn (inv_agenda h rest) a

end Sys2Proof.Proofs
end

section
/-! PROOFS. The statements of spec/20_memory.md: the bytes of a record, and the `CFG` that a READ samples. -/

namespace Sys2Proof.Proofs

open Sys2Proof.Machine Sys2Proof.Laws

/-! ## Little-endian sums (20_memory.md R41) -/

theorem toNat_byte_shiftLeft {w k : Nat} (hw : k + 8 ≤ w) (b : Byte) :
    (b.setWidth w <<< k).toNat = 2 ^ k * b.toNat := by
  have hshifted : b.toNat * 2 ^ k < 2 ^ w :=
    calc b.toNat * 2 ^ k < 2 ^ 8 * 2 ^ k := Nat.mul_lt_mul_of_pos_right b.isLt (Nat.two_pow_pos k)
      _ = 2 ^ (k + 8) := by rw [pow_add, mul_comm]
      _ ≤ 2 ^ w := Nat.pow_le_pow_right (by decide) hw
  rw [BitVec.toNat_shiftLeft, BitVec.toNat_setWidth_of_le (by omega), Nat.shiftLeft_eq, Nat.mod_eq_of_lt hshifted,
    mul_comm]

/-- A byte joined above the bits in use is added at its place. -/
theorem toNat_or_byte {w k : Nat} {x : BitVec w} (hx : x.toNat < 2 ^ k) (hw : k + 8 ≤ w) (b : Byte) :
    (x ||| b.setWidth w <<< k).toNat = x.toNat + 2 ^ k * b.toNat := by
  rw [BitVec.toNat_or, toNat_byte_shiftLeft hw, Nat.or_comm, ← Nat.two_pow_add_eq_or_of_lt hx, add_comm]

theorem toNat_le16 (b0 b1 : Byte) : (le16 b0 b1).toNat = b0.toNat + 2 ^ 8 * b1.toNat := by
  have h0 : (b0.setWidth 16).toNat = b0.toNat := BitVec.toNat_setWidth_of_le (by decide)
  rw [le16, toNat_or_byte (h0 ▸ b0.isLt) (by decide), h0]

theorem toNat_le32 (b0 b1 b2 b3 : Byte) :
    (le32 b0 b1 b2 b3).toNat = b0.toNat + 2 ^ 8 * b1.toNat + 2 ^ 16 * b2.toNat + 2 ^ 24 * b3.toNat := by
  have h0 : (b0.setWidth 32).toNat = b0.toNat := BitVec.toNat_setWidth_of_le (by decide)
  have h1 : (b0.setWidth 32 ||| b1.setWidth 32 <<< 8).toNat = b0.toNat + 2 ^ 8 * b1.toNat := by
    rw [toNat_or_byte (h0 ▸ b0.isLt) (by decide), h0]
  have h2 : (b0.setWidth 32 ||| b1.setWidth 32 <<< 8 ||| b2.setWidth 32 <<< 16).toNat =
      b0.toNat + 2 ^ 8 * b1.toNat + 2 ^ 16 * b2.toNat := by
    rw [toNat_or_byte (by omega) (by decide), h1]
  rw [le32, toNat_or_byte (by omega) (by decide), h2]

/-- Settles O4: the parser joins the first four bytes and the next two, each above those before it, and reads
no other. -/
theorem recordIsLittleEndian : Obligations.RecordIsLittleEndian := by
  intro b0 b1 b2 b3 b4 b5 b6 b7
  exact ⟨{ word := le32 b0 b1 b2 b3, seq := le16 b4 b5 }, rfl, toNat_le32 b0 b1 b2 b3, toNat_le16 b4 b5⟩

/-! ## No turn of the block or of the transport writes CFG (10_state.md R20, R21) -/

theorem readNFrame_cfg {s t : State} (h : ReadNFrame s t) : t.cfg = s.cfg := by rw [h.1]

@[simp] theorem connectTurn_cfg (reached : Bool) (s : State) : (connectTurn reached s).cfg = s.cfg := by
  cases reached <;> rfl

@[simp] theorem hostReadNTurn_cfg (n : Nat) (out : List RawWord) (s : State) : (hostReadNTurn n out s).cfg = s.cfg := by
  rcases hostReadNTurn_cases n out s with ⟨out', s1, hframe, heq⟩ | heq | ⟨s1, hframe, heq⟩
  · simp [heq, readNFrame_cfg hframe]
  · simp [heq]
  · simp [heq, readNFrame_cfg hframe]

@[simp] theorem refillTurn_cfg (c : Caller) (atEntry : Bool) (out : List RawWord) (s : State) :
    (refillTurn c atEntry out s).cfg = s.cfg := by
  rcases refillTurn_cases c atEntry out s with ⟨out', s1, hframe, heq⟩ | heq | ⟨s1, hframe, heq⟩
  · simp [heq, readNFrame_cfg hframe]
  · simp [heq]
  · simp [heq, readNFrame_cfg hframe]

@[simp] theorem entryTurn_cfg (c : Caller) (s : State) : (entryTurn c s).cfg = s.cfg := by
  rcases entryTurn_cases c s with ⟨-, -, heq⟩ | ⟨-, -, heq⟩ | ⟨-, heq⟩ <;> simp [heq]

@[simp] theorem deliver_cfg (c : Caller) (e : Event) (s : State) : (deliver c e s).cfg = s.cfg := by
  cases c <;> rfl

theorem blockTurn_cfg {s t : State} (h : blockTurn s = .next t) : t.cfg = s.cfg := by
  rcases blockTurn_cases s with ⟨-, heq⟩ | ⟨reached, -, heq⟩ | ⟨n, out, -, heq⟩ | ⟨c, -, heq⟩ |
    ⟨c, atEntry, out, -, heq⟩ | ⟨c, e, -, -, heq⟩ | ⟨c, -, -, -, heq⟩ | ⟨c, w, rest, -, -, -, heq⟩ <;>
    cases heq.symm.trans h
  · rfl
  · exact connectTurn_cfg reached s
  · exact hostReadNTurn_cfg n out s
  · exact entryTurn_cfg c s
  · exact refillTurn_cfg c atEntry out s
  · exact deliver_cfg c e s
  · rfl
  · rfl

theorem transportTurn_keeps_act_cfg (a : TransportAct) (s : State) :
    (transportTurn a s).act = s.act ∧ (transportTurn a s).cfg = s.cfg := by
  rcases transportTurn_cases a s with heq | ⟨eps, -, heq⟩ | ⟨bytes, -, -, heq⟩ | ⟨-, -, heq⟩ | ⟨-, -, heq⟩ <;>
    rw [heq] <;> exact ⟨rfl, rfl⟩

/-! ## A command in progress keeps its caller, and the caller its sample of CFG (20_memory.md R51) -/

/-- Where DECODE_ONE for the caller `c` can stand after a turn: still in progress for `c`, or no command is left. -/
def StaysWith (c : Caller) (a : Activity) : Prop := a = .idle ∨ ∃ ph, a = .decode c ph

theorem refillTurn_staysWith (c : Caller) (atEntry : Bool) (out : List RawWord) (s : State) :
    StaysWith c (refillTurn c atEntry out s).act := by
  rcases refillTurn_cases c atEntry out s with ⟨out', s1, -, heq⟩ | heq | ⟨s1, -, heq⟩ <;> rw [heq]
  · exact .inr ⟨.refill atEntry out', rfl⟩
  · exact .inr ⟨.words, rfl⟩
  · exact .inl rfl

theorem entryTurn_staysWith (c : Caller) (s : State) : StaysWith c (entryTurn c s).act := by
  rcases entryTurn_cases c s with ⟨-, -, heq⟩ | ⟨-, -, heq⟩ | ⟨-, heq⟩ <;> rw [heq]
  · exact .inr ⟨.refill true [], rfl⟩
  · exact .inr ⟨.words, rfl⟩
  · exact .inl rfl

theorem deliver_staysWith (c : Caller) (e : Event) (s : State) : StaysWith c (deliver c e s).act := by
  cases c with
  | host => exact .inl rfl
  | read r => exact .inr ⟨.entry, rfl⟩

theorem blockTurn_staysWith {s t : State} {c : Caller} {ph : Phase} (hact : s.act = .decode c ph)
    (h : blockTurn s = .next t) : StaysWith c t.act := by
  rcases blockTurn_cases s with ⟨hs, heq⟩ | ⟨reached, hs, heq⟩ | ⟨n, out, hs, heq⟩ | ⟨c, hs, heq⟩ |
    ⟨c, atEntry, out, hs, heq⟩ | ⟨c, e, hs, -, heq⟩ | ⟨c, hs, -, -, heq⟩ | ⟨c, w, rest, hs, -, -, heq⟩ <;>
    cases heq.symm.trans h <;> cases hact.symm.trans hs
  · exact entryTurn_staysWith c s
  · exact refillTurn_staysWith c atEntry out s
  · exact deliver_staysWith c e s
  · exact .inr ⟨.refill false [], rfl⟩
  · exact .inr ⟨.words, hs⟩

/-- While a command runs the host starts no other and writes no `CFG` (60_exceptions.md R176); RESET alone gets
through. -/
theorem hostTurn_of_busy {s : State} (hbusy : s.st.busy = true) (a : HostAct) :
    (hostTurn a s).act = .idle ∨ (hostTurn a s).act = s.act ∧ (hostTurn a s).cfg = s.cfg := by
  have hrefused : s.st.busy ≠ false := by simp [hbusy]
  rcases hostTurn_cases a s with heq | ⟨-, heq⟩ | ⟨ep, -, -, hidle, -⟩ | ⟨w, -, hidle, -⟩ |
    ⟨-, -, -, hidle, -⟩ | ⟨-, -, -, hidle, -⟩ | ⟨n, -, -, -, hidle, -⟩ | ⟨-, heq⟩ |
    ⟨e, rest, -, -, heq⟩ | ⟨-, -, heq⟩
  · exact .inr (by simp [heq])
  · exact .inl (by simp [heq])
  · exact absurd hidle hrefused
  · exact absurd hidle hrefused
  · exact absurd hidle hrefused
  · exact absurd hidle hrefused
  · exact absurd hidle hrefused
  · exact .inr (by simp [heq])
  · exact .inr (by simp [heq])
  · exact .inr (by simp [heq])

/-- One step of a busy DECODE_ONE or READ, whoever moves. -/
theorem step_keeps_caller_cfg {s t : State} {c : Caller} {ph : Phase} (hbusy : s.st.busy = true)
    (hact : s.act = .decode c ph) (hstep : step s = .next t) :
    t.act = .idle ∨ (∃ ph', t.act = .decode c ph') ∧ t.cfg = s.cfg := by
  rcases step_cases s with ⟨s0, hagenda, heq⟩ | ⟨a, rest, -, heq⟩ | ⟨a, rest, -, heq⟩
  · obtain ⟨hact0, hcfg0⟩ : s0.act = s.act ∧ s0.cfg = s.cfg := by
      rcases hagenda with ⟨-, rfl⟩ | ⟨rest, -, rfl⟩ <;> exact ⟨rfl, rfl⟩
    have hturn : blockTurn s0 = .next t := heq.symm.trans hstep
    exact (blockTurn_staysWith (hact0.trans hact) hturn).imp_right fun hc => ⟨hc, (blockTurn_cfg hturn).trans hcfg0⟩
  · cases heq.symm.trans hstep
    exact (hostTurn_of_busy (s := { s with agenda := rest }) hbusy a).imp_right fun ⟨ha, hcfg⟩ =>
      ⟨⟨ph, ha.trans hact⟩, hcfg⟩
  · cases heq.symm.trans hstep
    obtain ⟨ha, hcfg⟩ := transportTurn_keeps_act_cfg a { s with agenda := rest }
    exact .inr ⟨⟨ph, ha.trans hact⟩, hcfg⟩

/-- Settles O42: a READ is busy by the invariant, so a step that does not end it keeps its caller, which holds the
sampled `CFG`, and `CFG` itself. -/
theorem cfgIsSampledOnce : Obligations.CfgIsSampledOnce := by
  intro s t c c' ph ph' hinv hact hstep hact'
  have hbusy : s.st.busy = true := hinv.busyIff.mpr (by simp [hact])
  rcases step_keeps_caller_cfg hbusy hact hstep with hidle | ⟨⟨ph'', hcaller⟩, hcfg⟩
  · cases hact'.symm.trans hidle
  · cases hact'.symm.trans hcaller
    exact ⟨rfl, hcfg⟩

end Sys2Proof.Proofs
end

section
/-! PROOFS. The statements of spec/30_encoding.md: the decoder and the encoder of a word, the record around it, and the step
that no word can trap. -/

namespace Sys2Proof.Proofs

open Sys2Proof.Machine Sys2Proof.Laws

/-! ## An instruction is its kind, its marks and its payload (30_encoding.md R64) -/

theorem kind_ofKind (k : BitVec 4) (m : Marks) (v : Payload) : (ofKind k m v).kind = k := by
  obtain ⟨n, hn⟩ := k
  interval_cases n <;> rfl

theorem payload_ofKind (k : BitVec 4) (m : Marks) (v : Payload) : (ofKind k m v).payload = v := by
  unfold ofKind
  split <;> rfl

theorem ofKind_fields (i : Instr) : ofKind i.kind i.marks i.payload = i := by
  cases i <;> rfl

@[simp] theorem kind_decode (V : Word) : (decode V).kind = kindOf V := kind_ofKind _ _ _

@[simp] theorem payload_decode (V : Word) : (decode V).payload = payloadOf V := payload_ofKind _ _ _

/-- There is no illegal encoding (30_encoding.md R73). -/
theorem wf_eq_true (i : Instr) : i.wf = true := by
  cases i <;> rfl

/-! ## An encoded word is the sum of its fields at their places (30_encoding.md R62, R75) -/

theorem toNat_bitAt {k : Nat} (hk : k < 32) (b : Bool) : (bitAt b k).toNat = 2 ^ k * b.toNat := by
  cases b with
  | false => simp [bitAt]
  | true => simp [bitAt, Nat.shiftLeft_eq, Nat.mod_eq_of_lt (Nat.pow_lt_pow_right Nat.one_lt_two hk)]

theorem toNat_kind_shiftLeft (k : BitVec 4) : (k.setWidth 32 <<< 24).toNat = 2 ^ 24 * k.toNat := by
  have := k.isLt
  rw [BitVec.toNat_shiftLeft, BitVec.toNat_setWidth_of_le (by decide), Nat.shiftLeft_eq]
  omega

/-- A field joined below the bits in use is added. -/
theorem toNat_or_below {w : Nat} {x y : BitVec w} (k : Nat) (hx : x.toNat % 2 ^ k = 0) (hy : y.toNat < 2 ^ k) :
    (x ||| y).toNat = x.toNat + y.toNat := by
  obtain ⟨a, ha⟩ := Nat.dvd_of_mod_eq_zero hx
  rw [BitVec.toNat_or, ha, Nat.two_pow_add_eq_or_of_lt hy]

theorem toNat_marks_bits (m : Marks) :
    (bitAt m.t 31 ||| bitAt m.p 30 ||| bitAt m.h 29 ||| bitAt m.x 28).toNat =
      2 ^ 31 * m.t.toNat + 2 ^ 30 * m.p.toNat + 2 ^ 29 * m.h.toNat + 2 ^ 28 * m.x.toNat := by
  have ht := toNat_bitAt (k := 31) (by decide) m.t
  have hp := toNat_bitAt (k := 30) (by decide) m.p
  have hh := toNat_bitAt (k := 29) (by decide) m.h
  have hx := toNat_bitAt (k := 28) (by decide) m.x
  have := m.p.toNat_lt
  have := m.h.toNat_lt
  have := m.x.toNat_lt
  have htp := toNat_or_below (x := bitAt m.t 31) (y := bitAt m.p 30) 31 (by omega) (by omega)
  have htph := toNat_or_below (x := bitAt m.t 31 ||| bitAt m.p 30) (y := bitAt m.h 29) 30 (by omega) (by omega)
  rw [toNat_or_below 29] <;> omega

theorem toNat_encodeFields (k : BitVec 4) (v : Payload) (m : Marks) :
    (encodeFields k v m).toNat =
      2 ^ 31 * m.t.toNat + 2 ^ 30 * m.p.toNat + 2 ^ 29 * m.h.toNat + 2 ^ 28 * m.x.toNat + 2 ^ 24 * k.toNat + v.toNat := by
  have hmarks := toNat_marks_bits m
  have hkind := toNat_kind_shiftLeft k
  have hpayload : (v.setWidth 32).toNat = v.toNat := BitVec.toNat_setWidth_of_le (by decide)
  have := k.isLt
  have := v.isLt
  have hupper := toNat_or_below (x := bitAt m.t 31 ||| bitAt m.p 30 ||| bitAt m.h 29 ||| bitAt m.x 28)
    (y := k.setWidth 32 <<< 24) 28 (by omega) (by omega)
  rw [encodeFields, toNat_or_below 24] <;> omega

/-! ## The fields of a word are its digits (30_encoding.md R62) -/

theorem toNat_getLsbD (V : Word) (j : Nat) : (V.getLsbD j).toNat = V.toNat / 2 ^ j % 2 := by
  rw [← BitVec.testBit_toNat, Nat.toNat_testBit]

theorem getLsbD_eq_iff_digit {V : Word} {j : Nat} {b : Bool} : V.getLsbD j = b ↔ V.toNat / 2 ^ j % 2 = b.toNat := by
  rw [← toNat_getLsbD, (Function.LeftInverse.injective Bool.ofNat_toNat).eq_iff]

theorem toNat_kindOf (V : Word) : (kindOf V).toNat = V.toNat / 2 ^ 24 % 2 ^ 4 := by
  rw [kindOf, BitVec.extractLsb'_toNat, Nat.shiftRight_eq_div_pow]

theorem toNat_payloadOf (V : Word) : (payloadOf V).toNat = V.toNat % 2 ^ 24 := by
  rw [payloadOf, BitVec.extractLsb'_toNat, Nat.shiftRight_zero]

theorem payloadOf_encodeFields (k : BitVec 4) (v : Payload) (m : Marks) : payloadOf (encodeFields k v m) = v := by
  apply BitVec.eq_of_toNat_eq
  rw [toNat_payloadOf, toNat_encodeFields]
  have := v.isLt
  omega

theorem marksOf_encodeFields (k : BitVec 4) (v : Payload) (m : Marks) : marksOf (encodeFields k v m) = m := by
  obtain ⟨t, p, h, x⟩ := m
  have := t.toNat_lt
  have := p.toNat_lt
  have := h.toNat_lt
  have := x.toNat_lt
  have := k.isLt
  have := v.isLt
  simp only [marksOf, Marks.mk.injEq, getLsbD_eq_iff_digit, toNat_encodeFields]
  omega

/-- The seven digits of a word leave none of its 32 bits out. -/
theorem encodeFields_of_word (V : Word) : encodeFields (kindOf V) (payloadOf V) (marksOf V) = V := by
  apply BitVec.eq_of_toNat_eq
  simp only [toNat_encodeFields, toNat_kindOf, toNat_payloadOf, marksOf, toNat_getLsbD]
  have := V.isLt
  omega

/-- Settles O1: kind, marks and payload are read back from their places, and they are all an instruction holds. -/
theorem decodeOfEncodeIsTheInstruction : Obligations.DecodeOfEncodeIsTheInstruction := by
  intro i _
  have hkind : kindOf (encode i) = i.kind := kind_encodeFields _ _ _
  have hmarks : marksOf (encode i) = i.marks := marksOf_encodeFields _ _ _
  have hpayload : payloadOf (encode i) = i.payload := payloadOf_encodeFields _ _ _
  rw [decode, hkind, hmarks, hpayload, ofKind_fields]

/-- Settles O2: the instruction of a word holds the word's fields, and a word is the sum of its fields. -/
theorem encodeOfDecodeIsTheWord : Obligations.EncodeOfDecodeIsTheWord := by
  intro V
  refine ⟨wf_eq_true _, ?_⟩
  rw [encode, kind_decode, payload_decode, marks_decode, encodeFields_of_word]

/-! ## The kind as a match and a mask (30_encoding.md R64) -/

theorem getLsbD_kind_mask : ∀ j < 32, (0x0F000000#32).getLsbD j = (decide (24 ≤ j) && decide (j < 28)) := by
  decide

/-- Bit by bit: outside bits 24 to 27 both sides are 0. -/
theorem and_kind_mask (V : Word) : V &&& 0x0F000000#32 = (kindOf V).setWidth 32 <<< 24 := by
  apply BitVec.eq_of_getLsbD_eq
  intro j hj
  by_cases hlow : j < 24
  · have : ¬ 24 ≤ j := by omega
    simp [getLsbD_kind_mask j hj, hlow, this]
  · have hplace : 24 + (j - 24) = j := by omega
    have hrange : (24 ≤ j ∧ j < 28) ↔ j - 24 < 4 := by omega
    rw [BitVec.getLsbD_and, getLsbD_kind_mask j hj, ← Bool.decide_and]
    simp [kindOf, hlow, hj, hplace, hrange, Bool.and_comm]

theorem kind_shiftLeft_inj {k l : BitVec 4} : k.setWidth 32 <<< 24 = l.setWidth 32 <<< 24 ↔ k = l := by
  rw [← BitVec.toNat_inj, ← BitVec.toNat_inj, toNat_kind_shiftLeft, toNat_kind_shiftLeft]
  omega

/-- Settles O3: the mask keeps the kind at its place, where it can be read back. -/
theorem kindIsTheMaskedNibble : Obligations.KindIsTheMaskedNibble := by
  intro V k
  rw [kind_decode, and_kind_mask, kind_shiftLeft_inj]

/-! ## The written form (30_encoding.md R74) -/

theorem toNat_ofInt_24 (z : Int) : ((BitVec.ofInt 24 z).toNat : Int) = z % 2 ^ 24 := by
  rw [BitVec.toNat_ofInt]
  omega

/-- Settles O10: the fields' sum, where a written kind fits its 4 bits and the payload is the value's residue. -/
theorem writtenFormEncodesItsFields : Obligations.WrittenFormEncodesItsFields := by
  intro a hwf
  have hkind : a.kind < 16 := by
    simp only [WordText.wf, WordText.kindOk, Bool.and_eq_true, decide_eq_true_eq] at hwf
    exact hwf.1
  have hk : (BitVec.ofNat 4 a.kind).toNat = a.kind := Nat.mod_eq_of_lt hkind
  have hv := toNat_ofInt_24 a.value
  rw [WordText.encode, toNat_encodeFields]
  push_cast
  omega

/-! ## Words written by hand (95_test_vectors.md) -/

/-- Settles O9: each word is closed, so the decoder evaluates. -/
theorem handWrittenWordsDecode : Obligations.HandWrittenWordsDecode := by
  refine ⟨?_, ?_, ?_, ?_, ?_⟩ <;> decide

/-! ## Records (30_encoding.md R60, R61) -/

theorem toNat_byteAt (x : BitVec 32) (k : Nat) : (x.extractLsb' k 8).toNat = x.toNat / 2 ^ k % 2 ^ 8 := by
  rw [BitVec.extractLsb'_toNat, Nat.shiftRight_eq_div_pow]

theorem le32_bytes (V : BitVec 32) :
    le32 (V.extractLsb' 0 8) (V.extractLsb' 8 8) (V.extractLsb' 16 8) (V.extractLsb' 24 8) = V := by
  apply BitVec.eq_of_toNat_eq
  simp only [toNat_le32, toNat_byteAt]
  have := V.isLt
  omega

theorem le16_low_bytes (C : BitVec 32) : le16 (C.extractLsb' 0 8) (C.extractLsb' 8 8) = C.extractLsb' 0 16 := by
  apply BitVec.eq_of_toNat_eq
  rw [toNat_le16, toNat_byteAt, toNat_byteAt, BitVec.extractLsb'_toNat, Nat.shiftRight_zero]
  omega

theorem parseRecord_encodeRecord (V C : BitVec 32) :
    parseRecord (encodeRecord V C) = .ok { word := V, seq := C.extractLsb' 0 16 } := by
  rw [encodeRecord, parseRecord, le32_bytes, le16_low_bytes]

/-- Settles O5: the bytes of `V` join to `V` and the first two of `C` to its low half; a parsed record is the first that a
stream beginning with it is cut into. -/
theorem recordRoundTripKeepsTheLowCounterHalf : Obligations.RecordRoundTripKeepsTheLowCounterHalf := by
  intro V C rest
  exact ⟨parseRecord_encodeRecord V C, recordsOf_append_record (parseRecord_encodeRecord V C) rest⟩

theorem parseRecord_of_length_ne {bytes : List Byte} (h : bytes.length ≠ 8) :
    parseRecord bytes = .error (if bytes.length < 8 then .shortRecord else .longRecord) := by
  unfold parseRecord
  split
  · exact absurd rfl h
  · rfl

/-- Settles O6: the parser's one pattern is the list of 8 bytes, and its error names the side on which a length misses it. -/
theorem onlyEightBytesAreARecord : Obligations.OnlyEightBytesAreARecord := by
  intro bytes
  split_ifs with hshort height
  · rw [parseRecord_of_length_ne (by omega), if_pos hshort]
  · exact (parseRecord_ok_iff bytes).mpr height
  · rw [parseRecord_of_length_ne height, if_neg hshort]

/-! ## No word traps (30_encoding.md R73) -/

/-- Settles O22: by whose turn it is, and in a turn of the block by what the block is doing; every word runs, and an empty
buffer is refilled before a pop. -/
theorem everyStepHasANextState : Obligations.EveryStepHasANextState := by
  intro s
  exact step_next s

end Sys2Proof.Proofs
end

section
/-! PROOFS. The statements of spec/40_frame_sync.md: the record that one turn of READ_N takes, the synchronisation latch, and
READ_N(0). -/

namespace Sys2Proof.Proofs

open Sys2Proof.Machine Sys2Proof.Laws

/-! ## A turn of READ_N with a whole record at hand (40_frame_sync.md R81, R82, R83, R85) -/

/-- The record at the head of the bytes at hand is the one taken: every record has 8 bytes, so no other one is there. -/
theorem readNTurn_of_record {s : State} {n : Nat} {out : List RawWord} {w : RawWord} {rec rest : List Byte}
    (hasm : s.fs.asm.length ≤ 7) (hbytes : s.fs.asm ++ s.rx = rec ++ rest) (hrec : parseRecord rec = .ok w)
    (hlack : out.length < n) :
    readNTurn n out s = .going (out ++ fsOutput s.fs.synced w)
      { s with
        fs := { synced := syncedAfter s.fs.synced w.word, asm := [] }
        rx := rest
        rxRecords := s.rxRecords + 1 } := by
  have hlen : rec.length = 8 := parseRecord_ok_length hrec
  have hwhole : 8 ≤ (s.fs.asm ++ s.rx).length := by
    rw [hbytes, List.length_append]
    omega
  rcases readNTurn_cases (n := n) (out := out) (Nat.le_succ_of_le hasm) with
    ⟨hfull, -⟩ | ⟨-, w', rec', rest', hbytes', hrec', heq⟩ | ⟨-, hshort, -⟩ | ⟨-, hshort, -⟩
  · exact absurd hlack (Nat.not_lt.2 hfull)
  · have hsplit : rec = rec' ∧ rest = rest' :=
      List.append_inj (hbytes.symm.trans hbytes') (hlen.trans (parseRecord_ok_length hrec').symm)
    obtain ⟨rfl, rfl⟩ := hsplit
    cases hrec.symm.trans hrec'
    exact heq
  · exact absurd hwhole (Nat.not_le.2 hshort)
  · exact absurd hwhole (Nat.not_le.2 hshort)

theorem append_fsOutput (synced : Bool) (out : List RawWord) (w : RawWord) :
    out ++ fsOutput synced w = if synced then out ++ [w] else out := by
  cases synced <;> simp [fsOutput]

theorem syncedAfter_eq (synced : Bool) (V : Word) :
    syncedAfter synced V = if synced then true else V.getLsbD 31 := by
  cases synced <;> rfl

/-- Settles O24: the host's READ_N and a refill make the same turn of READ_N, which takes the record at hand. -/
theorem frameSyncTakesOneRecord : Obligations.FrameSyncTakesOneRecord := by
  intro s w rec rest hagenda hasm hbytes hrec
  have hturn {n : Nat} {out : List RawWord} (hlack : out.length < n) :=
    readNTurn_of_record hasm hbytes hrec hlack
  simp only [append_fsOutput, syncedAfter_eq] at hturn
  constructor
  · intro n out hact hlack
    simp only [step_empty hagenda, blockTurn, hact, hostReadNTurn, hturn hlack]
  · intro c atEntry out hact hlack
    simp only [step_empty hagenda, blockTurn, hact, refillTurn, Config.refillBatch_eq, hturn hlack]

/-! ## Which turns keep FS, and which at least keep its latch set (40_frame_sync.md R84, 10_state.md R17) -/

@[simp] theorem entryTurn_fs (c : Caller) (s : State) : (entryTurn c s).fs = s.fs := by
  rcases entryTurn_cases c s with ⟨-, -, heq⟩ | ⟨-, -, heq⟩ | ⟨-, heq⟩ <;> simp [heq]

@[simp] theorem deliver_fs (c : Caller) (e : Event) (s : State) : (deliver c e s).fs = s.fs := by
  cases c <;> rfl

@[simp] theorem transportTurn_fs (a : TransportAct) (s : State) : (transportTurn a s).fs = s.fs := by
  rcases transportTurn_cases a s with heq | ⟨eps, -, heq⟩ | ⟨bytes, -, -, heq⟩ | ⟨-, -, heq⟩ | ⟨-, -, heq⟩ <;> simp [heq]

theorem hostTurn_fs {a : HostAct} (ha : a ≠ .reset) (s : State) : (hostTurn a s).fs = s.fs := by
  rcases hostTurn_cases a s with heq | ⟨hreset, -⟩ | ⟨ep, -, -, -, heq⟩ | ⟨w, -, -, heq⟩ | ⟨-, -, -, -, heq⟩ |
    ⟨-, -, -, -, heq⟩ | ⟨n, -, -, -, -, heq⟩ | ⟨-, heq⟩ | ⟨e, rest, -, -, heq⟩ | ⟨-, -, heq⟩
  · rw [heq]
  · exact absurd hreset ha
  all_goals simp [heq]

theorem hostReadNTurn_keeps_synced {s : State} (n : Nat) (out : List RawWord) (hsync : s.fs.synced = true) :
    (hostReadNTurn n out s).fs.synced = true := by
  rcases hostReadNTurn_cases n out s with ⟨out', s1, ⟨-, hlatch⟩, heq⟩ | heq | ⟨s1, ⟨-, hlatch⟩, heq⟩ <;> rw [heq]
  · exact hlatch hsync
  · exact hsync
  · exact hlatch hsync

theorem refillTurn_keeps_synced {s : State} (c : Caller) (atEntry : Bool) (out : List RawWord)
    (hsync : s.fs.synced = true) : (refillTurn c atEntry out s).fs.synced = true := by
  rcases refillTurn_cases c atEntry out s with ⟨out', s1, ⟨-, hlatch⟩, heq⟩ | heq | ⟨s1, ⟨-, hlatch⟩, heq⟩ <;> rw [heq]
  · exact hlatch hsync
  · exact hsync
  · exact hlatch hsync

/-- A CONNECT that fails leaves the old connection's FS; one that succeeds starts the new connection afresh. -/
theorem blockTurn_keeps_synced_or_connects {s t : State} (hturn : blockTurn s = .next t) (hsync : s.fs.synced = true) :
    t.fs.synced = true ∨ s.act = .connecting true ∧ t = connectTurn true s := by
  rcases blockTurn_cases s with ⟨-, heq⟩ | ⟨reached, hact, heq⟩ | ⟨n, out, -, heq⟩ | ⟨c, -, heq⟩ |
    ⟨c, atEntry, out, -, heq⟩ | ⟨c, e, -, -, heq⟩ | ⟨c, -, -, -, heq⟩ | ⟨c, w, rest, -, -, -, heq⟩ <;>
    cases heq.symm.trans hturn
  · exact .inl hsync
  · cases reached with
    | false => exact .inl hsync
    | true => exact .inr ⟨hact, rfl⟩
  · exact .inl (hostReadNTurn_keeps_synced n out hsync)
  · exact .inl (by rw [entryTurn_fs, hsync])
  · exact .inl (refillTurn_keeps_synced c atEntry out hsync)
  · exact .inl (by rw [deliver_fs, hsync])
  · exact .inl hsync
  · exact .inl hsync

/-- Settles O29: of the block's turns only a CONNECT that succeeds can clear the latch, of the host's only RESET, and no turn
of the transport touches FS. -/
theorem syncLatchIsMonotonic : Obligations.SyncLatchIsMonotonic := by
  intro s t hstep hsync hcleared
  have hclears : t.fs.synced ≠ s.fs.synced := by simp [hsync, hcleared]
  rcases step_cases s with ⟨s0, hagenda, heq⟩ | ⟨a, rest, hagenda, heq⟩ | ⟨a, rest, -, heq⟩
  · obtain ⟨hact0, hfs0⟩ : s0.act = s.act ∧ s0.fs = s.fs := by
      rcases hagenda with ⟨-, rfl⟩ | ⟨rest, -, rfl⟩ <;> exact ⟨rfl, rfl⟩
    rcases blockTurn_keeps_synced_or_connects (heq.symm.trans hstep) (hfs0 ▸ hsync) with hkept | ⟨hact, rfl⟩
    · exact absurd (hkept.trans hsync.symm) hclears
    · exact .inr ⟨hact0.symm.trans hact, rfl, rfl, rfl⟩
  · cases heq.symm.trans hstep
    by_cases ha : a = .reset
    · exact .inl ⟨rest, ha ▸ hagenda⟩
    · exact absurd (by rw [hostTurn_fs ha]) hclears
  · cases heq.symm.trans hstep
    exact absurd (by rw [transportTurn_fs]) hclears

/-! ## READ_N from its start to its return (40_frame_sync.md R85, R86) -/

theorem hostTurn_readN {s : State} (hconn : s.st.connected = true) (herr : s.st.err = 0) (hbusy : s.st.busy = false)
    (n : Nat) : hostTurn (.readN n) s = startCommand (.readN n []) s := by
  simp [hostTurn, Status.ready, Status.halted, hconn, herr, hbusy]

theorem step_readN {s : State} {n : Nat} {later : List Turn} (hconn : s.st.connected = true) (herr : s.st.err = 0)
    (hbusy : s.st.busy = false) (h : s.agenda = .host (.readN n) :: later) :
    step s = .next (startCommand (.readN n []) { s with agenda := later }) := by
  rw [step_host h, hostTurn_readN (s := { s with agenda := later }) hconn herr hbusy]

/-- A READ_N that lacks no word returns what it has (40_frame_sync.md R85). -/
theorem blockTurn_readN_full {s : State} {n : Nat} {out : List RawWord} (hact : s.act = .readN n out)
    (hfull : n ≤ out.length) : blockTurn s = .next (commandReturn (.words out) s) := by
  simp [blockTurn, hact, hostReadNTurn, readNTurn, Nat.not_lt.2 hfull]

/-- Between its start and its return a command holds `ST.busy` and the activity; a command that does nothing else leaves a
reply alone. -/
theorem commandReturn_startCommand {s : State} (hidle : s.act = .idle) (hbusy : s.st.busy = false) (r : Reply)
    (a : Activity) : commandReturn r (startCommand a s) = reply r s := by
  simp only [commandReturn, startCommand, reply, ← hbusy, ← hidle]

/-- Settles O27: one step starts the command, and as it lacks no word the next returns the empty output, before any `RxTake`. -/
theorem readNOfZeroTouchesNothing : Obligations.ReadNOfZeroTouchesNothing := by
  intro s hagenda hconn herr hbusy hidle
  have hstart : step s = .next (startCommand (.readN 0 []) { s with agenda := [] }) :=
    step_readN hconn herr hbusy hagenda
  have hreturn : step (startCommand (.readN 0 []) { s with agenda := [] }) =
      .next (reply (.words []) { s with agenda := [] }) := by
    rw [step_empty rfl, blockTurn_readN_full rfl (Nat.zero_le _),
      commandReturn_startCommand (s := { s with agenda := [] }) hidle hbusy]
  rw [runFor_succ_next hstart, runFor_succ_next hreturn]
  rfl

end Sys2Proof.Proofs
end

section
/-! PROOFS. The statements of spec/41_field_decode.md: what each kind of word writes, and the source flags of an Event. -/

namespace Sys2Proof.Proofs

open Sys2Proof.Machine Sys2Proof.Laws Sys2Proof.Statements

/-! ## The state a word leaves (41_field_decode.md R109, R110, R111) -/

/-- The source bits as a sum, by their places (10_state.md R15). -/
theorem sourceBits_eq (m : Marks) : sourceBits m = BitVec.ofNat 2 (2 * m.p.toNat + m.h.toNat) := by
  rw [sourceBits]
  cases m.p <;> cases m.h <;> rfl

/-- The field part leaves `source` alone, so the source part ORs the flags into the set the word found. -/
theorem finishWord_eq_wordResult {m : Marks} {field : Event} {s : State} (hsource : field.source = s.ev.source) :
    finishWord m field s = wordResult m field s := by
  rw [finishWord_eq, wordResult, sourcePart, sourceBits_eq, hsource]

theorem exec_eq_wordResult (i : Instr) (s : State) :
    exec i s = .next (wordResult i.marks (fieldPart i s.ev) s) := by
  rw [exec_eq, finishWord_eq_wordResult (fieldPart_source i s.ev)]

/-- What R101 to R107 each say of one kind, said of all: the word's `V[27:24]`, and the state it leaves. -/
theorem kind_encode_and_exec (i : Instr) (s : State) :
    (encode i).extractLsb' 24 4 = i.kind ∧ exec i s = .next (wordResult i.marks (fieldPart i s.ev) s) :=
  ⟨kind_encodeFields _ _ _, exec_eq_wordResult i s⟩

/-! ## The masked payloads as numbers (30_encoding.md R65, R66) -/

theorem payload16_eq (v : Payload) : payload16 v = BitVec.ofNat 16 (v.toNat % 2 ^ 16) := by
  apply BitVec.eq_of_toNat_eq
  simp [payload16]

theorem payload12_eq (v : Payload) : payload12 v = BitVec.ofNat 16 (v.toNat % 2 ^ 12) := by
  apply BitVec.eq_of_toNat_eq
  simp [payload12]

theorem payload24_eq (v : Payload) : payload24 v = BitVec.ofNat 32 v.toNat := by
  apply BitVec.eq_of_toNat_eq
  simp [payload24]

/-- The sign test of R102: `raw > 0x7FFFFF` is the payload's sign bit. -/
theorem sext24_toInt_eq (v : Payload) :
    (sext24 v).toInt = if v.toNat > 0x7FFFFF then (v.toNat : Int) - 0x1000000 else v.toNat := by
  rw [sext24_toInt, BitVec.toInt_eq_toNat_cond]
  split <;> split <;> omega

/-! ## The nine unknown kinds (41_field_decode.md R108) -/

theorem fieldPart_of_unknown {i : Instr} (hunknown : 7 ≤ i.kind.toNat) (e : Event) : fieldPart i e = e := by
  cases i with
  | y | err | tag | period | event | ref | sampleid => exact absurd hunknown (by simp [Instr.kind])
  | _ => rfl

theorem exec_of_unknown {i : Instr} (hunknown : 7 ≤ i.kind.toNat) (s : State) :
    exec i s = .next (wordResult i.marks s.ev s) := by
  rw [exec_eq_wordResult, fieldPart_of_unknown hunknown]

/-- Settles O18: a kind of 7 or more has no field part, whether the word is given as an instruction or as its 32 bits. -/
theorem unknownKindsWriteNoField : Obligations.UnknownKindsWriteNoField := by
  intro m v s
  refine ⟨?unk7, ?unk8, ?unk9, ?unk10, ?unk11, ?unk12, ?unk13, ?unk14, ?unk15, ?word⟩
  case word =>
    intro V hunknown
    have hkind : 7 ≤ (decode V).kind.toNat := by rwa [kind_decode]
    rw [exec_of_unknown hkind, marks_decode]
  all_goals exact exec_of_unknown (by simp [Instr.kind]) s

/-! ## The source flags of one Event (41_field_decode.md R109, 42_event_assembly.md R121, R122) -/

/-- The set the next word finds in `EV`: the union so far, or the empty set after a terminator. -/
theorem finishWord_ev_source (m : Marks) (field : Event) (s : State) :
    (finishWord m field s).ev.source = if m.t then 0 else field.source ||| sourceBits m := by
  rw [finishWord_ev, apply_ite Event.source]
  rfl

/-- A terminator word finalizes the Event with the union of the set it found and its own flags (R109, R122). -/
theorem exec_of_terminator {j : Instr} (hend : j.marks.t = true) (s : State) :
    ∃ u e, exec j s = .next u ∧ u.fin = some e ∧ u.ev = Event.default ∧
      e.source = s.ev.source ||| sourceBits j.marks := by
  refine ⟨_, sourcePart j.marks (fieldPart j s.ev), exec_eq j s, ?fin, ?ev, ?source⟩
  case fin => rw [finishWord_fin, if_pos hend]
  case ev => rw [finishWord_ev, if_pos hend]
  case source => rw [sourcePart_source, fieldPart_source]

/-- Settles O20: `j` ORs its flags into the set `i` left in `EV`, which is the union of one Event, or empty if `i` ended it. -/
theorem sourceIsTheUnionWithinOneEvent : Obligations.SourceIsTheUnionWithinOneEvent := by
  intro i j s hend
  obtain ⟨u, e, hrun, hfin, hev, hsource⟩ := exec_of_terminator hend (finishWord i.marks (fieldPart i s.ev) s)
  refine ⟨_, u, e, exec_eq i s, hrun, hfin, hev, ?_⟩
  rw [hsource, finishWord_ev_source, fieldPart_source]
  cases i.marks.t with
  | true => exact BitVec.zero_or
  | false => rfl

/-! ## The seven kinds that write a field (41_field_decode.md R101 to R107) -/

/-- Settles O11. -/
theorem yWritesTheLowSixteenBits : Obligations.YWritesTheLowSixteenBits := by
  intro m v s
  rw [← payload16_eq]
  exact kind_encode_and_exec (.y m v) s

/-- Settles O12: the value written is the sign extension, read as a signed number. -/
theorem errWritesTheSignExtendedPayload : Obligations.ErrWritesTheSignExtendedPayload := by
  intro m v s
  obtain ⟨hkind, hexec⟩ := kind_encode_and_exec (.err m v) s
  exact ⟨hkind, sext24 v, sext24_toInt_eq v, hexec⟩

/-- Settles O13. -/
theorem tagWritesThePayload : Obligations.TagWritesThePayload := by
  intro m v s
  rw [← payload24_eq]
  exact kind_encode_and_exec (.tag m v) s

/-- Settles O14. -/
theorem periodWritesTheLowTwelveBits : Obligations.PeriodWritesTheLowTwelveBits := by
  intro m v s
  rw [← payload12_eq]
  exact kind_encode_and_exec (.period m v) s

/-- Settles O15: the event code is the whole payload. -/
theorem eventWritesTheEventCode : Obligations.EventWritesTheEventCode := by
  intro m v s
  exact kind_encode_and_exec (.event m v) s

/-- Settles O16. -/
theorem refWritesThePayload : Obligations.RefWritesThePayload := by
  intro m v s
  rw [← payload24_eq]
  exact kind_encode_and_exec (.ref m v) s

/-- Settles O17. -/
theorem sampleidWritesThePayload : Obligations.SampleidWritesThePayload := by
  intro m v s
  rw [← payload24_eq]
  exact kind_encode_and_exec (.sampleid m v) s

end Sys2Proof.Proofs
end

section
/-! PROOFS. The statements of spec/42_event_assembly.md: the entry check and the refills of DECODE_ONE, its loop, and a
whole DECODE_ONE of the host. -/

namespace Sys2Proof.Proofs

open Sys2Proof.Machine Sys2Proof.Laws

/-! ## The turn of the block in each phase of DECODE_ONE -/

theorem blockTurn_entry {s : State} {c : Caller} (hact : s.act = .decode c .entry) :
    blockTurn s = .next (entryTurn c s) := by
  simp only [blockTurn, hact]

theorem blockTurn_refill {s : State} {c : Caller} {atEntry : Bool} {out : List RawWord}
    (hact : s.act = .decode c (.refill atEntry out)) : blockTurn s = .next (refillTurn c atEntry out s) := by
  simp only [blockTurn, hact]

theorem blockTurn_words {s : State} {c : Caller} (hact : s.act = .decode c .words) : blockTurn s = wordTurn c s := by
  simp only [blockTurn, hact]

/-! ## The loop of DECODE_ONE, by what it finds (42_event_assembly.md R120, R123, R125) -/

theorem wordTurn_of_fin {s : State} {e : Event} (c : Caller) (hfin : s.fin = some e) :
    wordTurn c s = .next (deliver c e s) := by
  rcases wordTurn_cases c s with ⟨e', hfin', hturn⟩ | ⟨hnone, -⟩ | ⟨hnone, -⟩
  · cases hfin.symm.trans hfin'
    exact hturn
  · cases hfin.symm.trans hnone
  · cases hfin.symm.trans hnone

theorem wordTurn_of_empty {s : State} (c : Caller) (hfin : s.fin = none) (hbuf : s.buf = []) :
    wordTurn c s = .next (startRefill c false s) := by
  rcases wordTurn_cases c s with ⟨e, hsome, -⟩ | ⟨-, -, hturn⟩ | ⟨-, w, rest, hcons, -⟩
  · cases hfin.symm.trans hsome
  · exact hturn
  · cases hbuf.symm.trans hcons

theorem wordTurn_of_cons {s : State} {w : RawWord} {rest : List RawWord} (c : Caller) (hfin : s.fin = none)
    (hbuf : s.buf = w :: rest) : wordTurn c s = exec (decode w.word) { s with buf := rest } := by
  rcases wordTurn_cases c s with ⟨e, hsome, -⟩ | ⟨-, hempty, -⟩ | ⟨-, w', rest', hcons, hturn⟩
  · cases hfin.symm.trans hsome
  · cases hbuf.symm.trans hempty
  · cases hbuf.symm.trans hcons
    exact hturn

theorem blockTurn_pop {s : State} {c : Caller} {w : RawWord} {rest : List RawWord} (hact : s.act = .decode c .words)
    (hfin : s.fin = none) (hbuf : s.buf = w :: rest) :
    blockTurn s = exec (decode w.word) { s with buf := rest } := by
  rw [blockTurn_words hact, wordTurn_of_cons c hfin hbuf]

/-- Settles O21: the block's turn is the pop, whether it comes by an empty agenda or from the agenda's front. -/
theorem stepRunsTheDecodedWord : Obligations.StepRunsTheDecodedWord := by
  intro s c w rest hact hfin hbuf
  constructor
  · intro hempty
    rw [step_empty hempty, blockTurn_pop hact hfin hbuf]
  · intro later hfront
    rw [step_block hfront]
    exact blockTurn_pop hact hfin hbuf

/-- Settles O31: the loop finds no Event to return and no word to pop. -/
theorem emptyBufferIsRefilledInsideAnEvent : Obligations.EmptyBufferIsRefilledInsideAnEvent := by
  intro s c hagenda hact hfin hbuf
  rw [step_empty hagenda, blockTurn_words hact, wordTurn_of_empty c hfin hbuf]
  rfl

/-! ## The entry check and the end of a refill (42_event_assembly.md R121, R124, R126) -/

/-- A host's DECODE_ONE always wants its Event; a READ does while its loop test holds (43_lock_cycle_filter.md R145). -/
theorem callerWants_of_loopTest {s : State} {c : Caller}
    (hwants : ∀ cfg, c = .read cfg → cfg.unbounded = true ∨ s.lf.count < cfg.n) : callerWants c s = true := by
  cases c with
  | host => rfl
  | read cfg => simpa [callerWants, wantsMore] using hwants cfg rfl

theorem entryTurn_of_wants {s : State} {c : Caller} (hwants : callerWants c s = true) :
    entryTurn c s = if s.buf.length < 10 then startRefill c true s else startWords c s := by
  rcases entryTurn_cases c s with ⟨-, hlow, hturn⟩ | ⟨-, henough, hturn⟩ | ⟨hdone, -⟩
  · rw [hturn, if_pos hlow]
  · rw [hturn, if_neg (Nat.not_lt.2 henough)]
  · cases hwants.symm.trans hdone

/-- Settles O30: past the loop test of its caller the entry is the check against the low watermark. -/
theorem entryChecksTheLowWatermark : Obligations.EntryChecksTheLowWatermark := by
  intro s c hagenda hact hwants
  rw [step_empty hagenda, blockTurn_entry hact, entryTurn_of_wants (callerWants_of_loopTest hwants)]
  rfl

theorem readNTurn_of_full {n : Nat} {out : List RawWord} (hfull : n ≤ out.length) (s : State) :
    readNTurn n out s = .returned s := by
  simp only [readNTurn, if_neg (Nat.not_lt.2 hfull)]

/-- Settles O32: the READ_N of the refill lacks no word, so it returns its output before any `RxTake`. -/
theorem refillAppendsItsBatchInOneStep : Obligations.RefillAppendsItsBatchInOneStep := by
  intro s c atEntry out hagenda hact hfull
  rw [step_empty hagenda, blockTurn_refill hact, refillTurn, Config.refillBatch_eq, readNTurn_of_full hfull]
  cases atEntry with
  | true => rfl
  | false => rfl

/-! ## A whole DECODE_ONE (42_event_assembly.md R120, R122, R123, R130) -/

theorem step_pop {s : State} {c : Caller} {w : RawWord} {rest : List RawWord} (hagenda : s.agenda = [])
    (hact : s.act = .decode c .words) (hfin : s.fin = none) (hbuf : s.buf = w :: rest) :
    step s = .next { s with
      buf := rest
      ev := if terminatorBit w.word then Event.default else wordEvent w.word s.ev
      fin := if terminatorBit w.word then some (wordEvent w.word s.ev) else s.fin } := by
  rw [step_empty hagenda, blockTurn_pop hact hfin hbuf, exec_decode]

theorem step_deliver {s : State} {c : Caller} {e : Event} (hagenda : s.agenda = []) (hact : s.act = .decode c .words)
    (hfin : s.fin = some e) : step s = .next (deliver c e s) := by
  rw [step_empty hagenda, blockTurn_words hact, wordTurn_of_fin c hfin]

/-- The loop folds the words before a terminator into `EV`, one a step, and changes nothing but `BUF` and `EV`. -/
theorem runFor_plain_words {s : State} {c : Caller} {ws rest : List RawWord} (k : Nat) (hagenda : s.agenda = [])
    (hact : s.act = .decode c .words) (hfin : s.fin = none) (hbuf : s.buf = ws ++ rest)
    (hplain : ∀ r ∈ ws, terminatorBit r.word = false) :
    runFor (ws.length + k) s =
      runFor k { s with buf := rest, ev := ws.foldl (fun e r => wordEvent r.word e) s.ev } := by
  induction ws generalizing s with
  | nil =>
    rw [List.length_nil, Nat.zero_add, List.foldl_nil, show rest = s.buf from hbuf.symm]
  | cons r ws ih =>
    obtain ⟨hr, hws⟩ := List.forall_mem_cons.1 hplain
    have hpop : step s = .next { s with buf := ws ++ rest, ev := wordEvent r.word s.ev } := by
      rw [step_pop hagenda hact hfin hbuf, hr]
      rfl
    rw [List.length_cons, Nat.add_right_comm, runFor_succ_next hpop]
    exact ih (s := { s with buf := ws ++ rest, ev := wordEvent r.word s.ev }) hagenda hact hfin rfl hws

/-- A terminator is popped in one step, and the Event it finalizes goes to the host in the next. -/
theorem runFor_terminator_host {s : State} {w : RawWord} {rest : List RawWord} (hagenda : s.agenda = [])
    (hact : s.act = .decode .host .words) (hfin : s.fin = none) (hbuf : s.buf = w :: rest)
    (hend : terminatorBit w.word = true) :
    runFor 2 s = .next (commandReturn (.event (wordEvent w.word s.ev))
      { s with buf := rest, ev := Event.default, fin := none }) := by
  have hpop : step s = .next { s with buf := rest, ev := Event.default, fin := some (wordEvent w.word s.ev) } := by
    rw [step_pop hagenda hact hfin hbuf, hend]
    rfl
  rw [runFor_succ_next hpop]
  exact runFor_succ_next (step_deliver (c := .host) hagenda hact rfl)

/-- Settles O35: the entry check passes in one step, the words before the terminator take one each, and the
terminator and the return take two. -/
theorem decodeOneReturnsTheNextEvent : Obligations.DecodeOneReturnsTheNextEvent := by
  intro s ws rest w hagenda hact hfin hbuf hlen hplain hend
  have hentry : step s = .next (startWords .host s) := by
    rw [step_empty hagenda, blockTurn_entry hact, entryTurn_of_wants rfl, if_neg (Nat.not_lt.2 hlen)]
  have hwords := runFor_plain_words (s := startWords .host s) 2 hagenda rfl hfin hbuf hplain
  rw [runFor_succ_next hentry, hwords.trans (runFor_terminator_host hagenda rfl hfin rfl hend)]
  simp only [commandReturn, startWords, hfin]

end Sys2Proof.Proofs
end

section
/-! PROOFS. The statements of spec/43_lock_cycle_filter.md: the trigger latch and the source filter, and a READ from its start
to its end. -/

namespace Sys2Proof.Proofs

open Sys2Proof.Machine Sys2Proof.Laws

/-! ## Which turns keep LF, and which at least keep its latch set (43_lock_cycle_filter.md R144, 10_state.md R18) -/

theorem readNFrame_lf {s t : State} (h : ReadNFrame s t) : t.lf = s.lf := by rw [h.1]

@[simp] theorem connectTurn_lf (reached : Bool) (s : State) : (connectTurn reached s).lf = s.lf := by
  cases reached <;> rfl

@[simp] theorem hostReadNTurn_lf (n : Nat) (out : List RawWord) (s : State) : (hostReadNTurn n out s).lf = s.lf := by
  rcases hostReadNTurn_cases n out s with ⟨out', s1, hframe, heq⟩ | heq | ⟨s1, hframe, heq⟩
  · simp [heq, readNFrame_lf hframe]
  · simp [heq]
  · simp [heq, readNFrame_lf hframe]

@[simp] theorem refillTurn_lf (c : Caller) (atEntry : Bool) (out : List RawWord) (s : State) :
    (refillTurn c atEntry out s).lf = s.lf := by
  rcases refillTurn_cases c atEntry out s with ⟨out', s1, hframe, heq⟩ | heq | ⟨s1, hframe, heq⟩
  · simp [heq, readNFrame_lf hframe]
  · simp [heq]
  · simp [heq, readNFrame_lf hframe]

@[simp] theorem entryTurn_lf (c : Caller) (s : State) : (entryTurn c s).lf = s.lf := by
  rcases entryTurn_cases c s with ⟨-, -, heq⟩ | ⟨-, -, heq⟩ | ⟨-, heq⟩ <;> simp [heq]

@[simp] theorem transportTurn_lf (a : TransportAct) (s : State) : (transportTurn a s).lf = s.lf := by
  rcases transportTurn_cases a s with heq | ⟨eps, -, heq⟩ | ⟨bytes, -, -, heq⟩ | ⟨-, -, heq⟩ | ⟨-, -, heq⟩ <;> simp [heq]

/-- LF ORs into its latch and never clears it (43_lock_cycle_filter.md R141, R144). -/
theorem deliver_keeps_logging {s : State} (c : Caller) (e : Event) (hlog : s.lf.logging = true) :
    (deliver c e s).lf.logging = true := by
  cases c with
  | host => exact hlog
  | read r => simp [deliver, loggingAfter, hlog]

theorem blockTurn_keeps_logging {s t : State} (hturn : blockTurn s = .next t) (hlog : s.lf.logging = true) :
    t.lf.logging = true := by
  rcases blockTurn_cases s with ⟨-, heq⟩ | ⟨reached, -, heq⟩ | ⟨n, out, -, heq⟩ | ⟨c, -, heq⟩ |
    ⟨c, atEntry, out, -, heq⟩ | ⟨c, e, -, -, heq⟩ | ⟨c, -, -, -, heq⟩ | ⟨c, w, rest, -, -, -, heq⟩ <;>
    cases heq.symm.trans hturn
  · exact hlog
  · rwa [connectTurn_lf]
  · rwa [hostReadNTurn_lf]
  · rwa [entryTurn_lf]
  · rwa [refillTurn_lf]
  · exact deliver_keeps_logging c e hlog
  · exact hlog
  · exact hlog

theorem hostTurn_clears_lf_or_keeps (a : HostAct) (s : State) :
    a = .reset ∨ (a = .read ∧ hostTurn a s = startRead s) ∨ (hostTurn a s).lf = s.lf := by
  rcases hostTurn_cases a s with heq | ⟨hreset, -⟩ | ⟨ep, -, -, -, heq⟩ | ⟨w, -, -, heq⟩ | ⟨hread, -, -, -, heq⟩ |
    ⟨-, -, -, -, heq⟩ | ⟨n, -, -, -, -, heq⟩ | ⟨-, heq⟩ | ⟨e, rest, -, -, heq⟩ | ⟨-, -, heq⟩
  · exact .inr (.inr (by rw [heq]))
  · exact .inl hreset
  · exact .inr (.inr (by rw [heq, startCommand_lf]))
  · exact .inr (.inr (by rw [heq]))
  · exact .inr (.inl ⟨hread, heq⟩)
  all_goals exact .inr (.inr (by simp [heq]))

/-- Settles O41: no turn of the block or of the transport clears the latch, and of the host's only RESET and the start of a
READ do. -/
theorem triggerLatchIsMonotonic : Obligations.TriggerLatchIsMonotonic := by
  intro s t hstep hlog hcleared
  have hclears : t.lf.logging ≠ s.lf.logging := by simp [hlog, hcleared]
  rcases step_cases s with ⟨s0, hagenda, heq⟩ | ⟨a, rest, hagenda, heq⟩ | ⟨a, rest, -, heq⟩
  · have hlf0 : s0.lf = s.lf := by
      rcases hagenda with ⟨-, rfl⟩ | ⟨rest, -, rfl⟩ <;> rfl
    have hkept : t.lf.logging = true := blockTurn_keeps_logging (heq.symm.trans hstep) (hlf0 ▸ hlog)
    exact absurd (hkept.trans hlog.symm) hclears
  · cases heq.symm.trans hstep
    rcases hostTurn_clears_lf_or_keeps a { s with agenda := rest } with rfl | ⟨rfl, hstart⟩ | hkept
    · exact .inl ⟨rest, hagenda⟩
    · exact .inr ⟨⟨rest, hagenda⟩, by rw [hstart]; rfl⟩
    · exact absurd (by rw [hkept]) hclears
  · cases heq.symm.trans hstep
    exact absurd (by rw [transportTurn_lf]) hclears

/-! ## A READ in progress: its command stands or ends in TransportError, unless it completes (43_lock_cycle_filter.md R145,
R147, R151) -/

theorem readNFrame_st_replies {s t : State} (h : ReadNFrame s t) : t.st = s.st ∧ t.replies = s.replies := by
  rw [h.1]
  exact ⟨rfl, rfl⟩

/-- Two ways a turn can leave the command of the caller `c`: in progress with `ST` as it was, or ended by TransportError
(60_exceptions.md R165, R166). -/
inductive GoesOnOrRaises (c : Caller) (s t : State) : Prop
  | goesOn (ph : Phase) (act : t.act = .decode c ph) (st : t.st = s.st)
  | raises (act : t.act = .idle) (err : t.st.err = 2) (done : t.st.done = false)
      (replies : t.replies = s.replies ++ [.raised .transportError])

theorem refillTurn_goesOnOrRaises (c : Caller) (atEntry : Bool) (out : List RawWord) (s : State) :
    GoesOnOrRaises c s (refillTurn c atEntry out s) := by
  rcases refillTurn_cases c atEntry out s with ⟨out', s1, hframe, heq⟩ | heq | ⟨s1, hframe, heq⟩ <;> rw [heq]
  · exact .goesOn (.refill atEntry out') rfl (readNFrame_st_replies hframe).1
  · exact .goesOn .words rfl rfl
  · exact .raises rfl rfl rfl (by rw [raise_replies, (readNFrame_st_replies hframe).2])

theorem entryTurn_goesOnOrRaises {c : Caller} {s : State} (hwants : callerWants c s = true) :
    GoesOnOrRaises c s (entryTurn c s) := by
  rw [entryTurn_of_wants hwants]
  split
  · exact .goesOn (.refill true []) rfl rfl
  · exact .goesOn .words rfl rfl

/-- The entry is the one place where a READ can complete, and only if its loop test fails. -/
theorem blockTurn_read_goesOnOrRaises {s t : State} {c : Cfg} {ph : Phase} (hact : s.act = .decode (.read c) ph)
    (hwants : callerWants (.read c) s = true) (hturn : blockTurn s = .next t) : GoesOnOrRaises (.read c) s t := by
  rcases blockTurn_cases s with ⟨hs, heq⟩ | ⟨reached, hs, heq⟩ | ⟨n, out, hs, heq⟩ | ⟨c, hs, heq⟩ |
    ⟨c, atEntry, out, hs, heq⟩ | ⟨c, e, hs, -, heq⟩ | ⟨c, hs, -, -, heq⟩ | ⟨c, w, rest, hs, -, -, heq⟩ <;>
    cases heq.symm.trans hturn <;> cases hact.symm.trans hs
  · exact entryTurn_goesOnOrRaises hwants
  · exact refillTurn_goesOnOrRaises _ atEntry out s
  · exact .goesOn .entry rfl rfl
  · exact .goesOn (.refill false []) rfl rfl
  · exact .goesOn .words hs rfl

theorem callerWants_of_unbounded {c : Cfg} (hunbounded : c.unbounded = true) (s : State) :
    callerWants (.read c) s = true :=
  callerWants_of_loopTest fun _ hc => .inl (by cases hc; exact hunbounded)

/-- While a command runs, no host action but RESET touches it or `ST` (60_exceptions.md R176). -/
theorem hostTurn_of_busy_keeps_act_st {s : State} (hbusy : s.st.busy = true) {a : HostAct} (ha : a ≠ .reset) :
    (hostTurn a s).act = s.act ∧ (hostTurn a s).st = s.st := by
  have hrefused : s.st.busy ≠ false := by simp [hbusy]
  rcases hostTurn_cases a s with heq | ⟨hreset, -⟩ | ⟨ep, -, -, hidle, -⟩ | ⟨w, -, hidle, -⟩ |
    ⟨-, -, -, hidle, -⟩ | ⟨-, -, -, hidle, -⟩ | ⟨n, -, -, -, hidle, -⟩ | ⟨-, heq⟩ |
    ⟨e, rest, -, -, heq⟩ | ⟨-, -, heq⟩
  · simp [heq]
  · exact absurd hreset ha
  · exact absurd hidle hrefused
  · exact absurd hidle hrefused
  · exact absurd hidle hrefused
  · exact absurd hidle hrefused
  · exact absurd hidle hrefused
  all_goals simp [heq]

@[simp] theorem transportTurn_st (a : TransportAct) (s : State) : (transportTurn a s).st = s.st := by
  rcases transportTurn_cases a s with heq | ⟨eps, -, heq⟩ | ⟨bytes, -, -, heq⟩ | ⟨-, -, heq⟩ | ⟨-, -, heq⟩ <;> simp [heq]

/-- One step of a busy READ whose loop test holds, whoever moves. -/
theorem step_read_goesOnOrRaises {s t : State} {c : Cfg} {ph : Phase} (hbusy : s.st.busy = true)
    (hact : s.act = .decode (.read c) ph) (hwants : callerWants (.read c) s = true) (hstep : step s = .next t) :
    GoesOnOrRaises (.read c) s t ∨
      ∃ later, s.agenda = .host .reset :: later ∧ t = resetBlock { s with agenda := later } := by
  rcases step_cases s with ⟨s0, hagenda, heq⟩ | ⟨a, rest, hagenda, heq⟩ | ⟨a, rest, -, heq⟩
  · have hturn : blockTurn s0 = .next t := heq.symm.trans hstep
    rcases hagenda with ⟨-, rfl⟩ | ⟨rest, -, rfl⟩
    · exact .inl (blockTurn_read_goesOnOrRaises hact hwants hturn)
    · cases blockTurn_read_goesOnOrRaises (s := { s with agenda := rest }) hact hwants hturn with
      | goesOn ph' hact' hst => exact .inl (.goesOn ph' hact' hst)
      | raises hidle herr hdone hreplies => exact .inl (.raises hidle herr hdone hreplies)
  · cases heq.symm.trans hstep
    by_cases ha : a = .reset
    · cases ha
      exact .inr ⟨rest, hagenda, rfl⟩
    · obtain ⟨hact', hst⟩ := hostTurn_of_busy_keeps_act_st (s := { s with agenda := rest }) hbusy ha
      exact .inl (.goesOn ph (hact'.trans hact) hst)
  · cases heq.symm.trans hstep
    have hact' := (transportTurn_keeps_act_cfg a { s with agenda := rest }).1
    exact .inl (.goesOn ph (hact'.trans hact) (transportTurn_st _ _))

/-- `ST.done` is 0 during a READ (10_state.md R19). -/
theorem done_false_of_read {s : State} {c : Cfg} {ph : Phase} (hinv : s.Inv) (hact : s.act = .decode (.read c) ph) :
    s.st.done = false :=
  Bool.eq_false_iff.2 fun hdone => (hinv.doneQuiet hdone).2 c ph hact

/-- Settles O40: an unbounded READ's loop test always holds, so no turn completes it. -/
theorem unboundedReadEndsOnlyByExceptionOrReset : Obligations.UnboundedReadEndsOnlyByExceptionOrReset := by
  intro s t c ph hinv hact hunbounded hstep
  have hbusy : s.st.busy = true := hinv.busyIff.mpr (by simp [hact])
  rcases step_read_goesOnOrRaises hbusy hact (callerWants_of_unbounded hunbounded s) hstep with
    hread | ⟨later, hagenda, rfl⟩
  · cases hread with
    | goesOn ph' hact' hst => exact ⟨by rw [hst, done_false_of_read hinv hact], .inl ⟨ph', hact'⟩⟩
    | raises hidle herr hdone hreplies => exact ⟨hdone, .inr (.inl ⟨hidle, herr, hreplies⟩)⟩
  · exact ⟨rfl, .inr (.inr ⟨rfl, later, hagenda⟩)⟩

/-! ## The Event step of LF (43_lock_cycle_filter.md R140 to R143, R150) -/

theorem loggingAfter_iff {logging : Bool} {c : Cfg} {e : Event} :
    loggingAfter logging c e = true ↔ logging = true ∨ c.trigEn = false ∨ e.eventCode = c.trigCode := by
  simp [loggingAfter, arms]

theorem appends_iff {logging : Bool} {c : Cfg} {e : Event} :
    appends logging c e = true ↔ loggingAfter logging c e = true ∧ (c.srcEn = false ∨ e.source = c.srcVal) := by
  simp [appends, sourceMatches]

/-- The filter decides once between two outcomes. -/
theorem lfStep_eq (c : Cfg) (e : Event) (s : State) :
    lfStep c e s = { s with
      lf := if appends s.lf.logging c e
        then { logging := loggingAfter s.lf.logging c e, count := s.lf.count + 1, result := s.lf.result ++ [e] }
        else { s.lf with logging := loggingAfter s.lf.logging c e }
      evt := if appends s.lf.logging c e then s.evt ++ [e] else s.evt } := by
  cases happ : appends s.lf.logging c e <;> simp [lfStep, happ]

/-- Settles O36: the loop of DECODE_ONE hands its Event to the READ, whose latch and filter are read as conditions. -/
theorem filterArmsThenAppends : Obligations.FilterArmsThenAppends := by
  intro s c e hagenda hact hfin
  refine ⟨loggingAfter s.lf.logging c e, appends s.lf.logging c e, loggingAfter_iff, appends_iff, ?_⟩
  rw [step_deliver hagenda hact hfin, deliver, lfStep_eq]

/-! ## The start and the completion of a READ (43_lock_cycle_filter.md R145, R146, R148) -/

theorem hostTurn_read {s : State} (hconn : s.st.connected = true) (herr : s.st.err = 0) (hbusy : s.st.busy = false) :
    hostTurn .read s = startRead s := by
  simp [hostTurn, Status.ready, Status.halted, hconn, herr, hbusy]

theorem step_read {s : State} {later : List Turn} (hconn : s.st.connected = true) (herr : s.st.err = 0)
    (hbusy : s.st.busy = false) (h : s.agenda = .host .read :: later) :
    step s = .next (startRead { s with agenda := later }) := by
  rw [step_host h, hostTurn_read (s := { s with agenda := later }) hconn herr hbusy]

/-- Settles O37. -/
theorem readStartsWithAClearedFilter : Obligations.ReadStartsWithAClearedFilter := by
  intro s later h hconn herr hbusy
  exact step_read hconn herr hbusy h

theorem callerWants_read_false {s : State} {c : Cfg} (hbounded : c.unbounded = false) (hcount : c.n ≤ s.lf.count) :
    callerWants (.read c) s = false := by
  simp [callerWants, wantsMore, hbounded, hcount]

/-- The loop test of a READ that has its Events fails before the entry check of another DECODE_ONE. -/
theorem step_readComplete {s : State} {c : Cfg} (hagenda : s.agenda = []) (hact : s.act = .decode (.read c) .entry)
    (hbounded : c.unbounded = false) (hcount : c.n ≤ s.lf.count) : step s = .next (readComplete s) := by
  have hfull : callerWants (.read c) s = false := callerWants_read_false hbounded hcount
  rw [step_empty hagenda, blockTurn_entry hact]
  rcases entryTurn_cases (.read c) s with ⟨hwants, -⟩ | ⟨hwants, -⟩ | ⟨-, heq⟩
  · cases hwants.symm.trans hfull
  · cases hwants.symm.trans hfull
  · rw [heq]

/-- Settles O38. -/
theorem readCompletesByCount : Obligations.ReadCompletesByCount := by
  intro s c hagenda hact hbounded hcount
  exact step_readComplete hagenda hact hbounded hcount

/-- Settles O39: one step starts the READ with a count of 0, which is all it was asked for, so the next completes it. -/
theorem readOfZeroReturnsTheEmptyList : Obligations.ReadOfZeroReturnsTheEmptyList := by
  intro s hagenda hconn herr hbusy hn hbounded
  have hstart : step s = .next (startRead { s with agenda := [] }) := step_read hconn herr hbusy hagenda
  have hcomplete : step (startRead { s with agenda := [] }) = .next (readComplete (startRead { s with agenda := [] })) :=
    step_readComplete rfl rfl hbounded hn.le
  rw [runFor_succ_next hstart, runFor_succ_next hcomplete]
  rfl

end Sys2Proof.Proofs
end

section
/-! PROOFS. The statements of spec/60_exceptions.md: READ_N short of a record, the exceptions and the halted state, and the
conditions of the host's actions. -/

namespace Sys2Proof.Proofs

open Sys2Proof.Machine Sys2Proof.Laws Sys2Proof.Statements

/-! ## READ_N short of a record: it waits or it breaks (60_exceptions.md R162, R174, 10_state.md R26) -/

/-- With fewer than 8 bytes at hand every `RxTake` takes them all, and the connection decides whether they wait or are lost. -/
theorem readNTurn_of_short {s : State} {n : Nat} {out : List RawWord} (hshort : (s.fs.asm ++ s.rx).length < 8)
    (hlack : out.length < n) :
    (s.link = .up ∧
      readNTurn n out s = .going out { s with fs := { s.fs with asm := s.fs.asm ++ s.rx }, rx := [] }) ∨
    (s.link ≠ .up ∧ readNTurn n out s = .failed { s with fs := { s.fs with asm := [] }, rx := [] }) := by
  have hasm : s.fs.asm.length ≤ 8 := by
    rw [List.length_append] at hshort
    omega
  rcases readNTurn_cases (n := n) (out := out) hasm with
    ⟨hfull, -⟩ | ⟨-, w, rec, rest, hsplit, hrec, -⟩ | ⟨-, -, hlink, heq⟩ | ⟨-, -, hlink, heq⟩
  · exact absurd hlack (Nat.not_lt.2 hfull)
  · have hlen : rec.length = 8 := parseRecord_ok_length hrec
    rw [hsplit, List.length_append] at hshort
    omega
  · exact .inl ⟨hlink, heq⟩
  · exact .inr ⟨hlink, heq⟩

theorem readNTurn_of_waiting {s : State} {n : Nat} {out : List RawWord} (hshort : (s.fs.asm ++ s.rx).length < 8)
    (hlink : s.link = .up) (hlack : out.length < n) :
    readNTurn n out s = .going out { s with fs := { s.fs with asm := s.fs.asm ++ s.rx }, rx := [] } :=
  (readNTurn_of_short hshort hlack).elim And.right fun hended => absurd hlink hended.1

theorem readNTurn_of_broken {s : State} {n : Nat} {out : List RawWord} (hshort : (s.fs.asm ++ s.rx).length < 8)
    (hlink : s.link ≠ .up) (hlack : out.length < n) :
    readNTurn n out s = .failed { s with fs := { s.fs with asm := [] }, rx := [] } :=
  (readNTurn_of_short hshort hlack).elim (fun hup => absurd hup.1 hlink) And.right

theorem blockTurn_readN {s : State} {n : Nat} {out : List RawWord} (hact : s.act = .readN n out) :
    blockTurn s = .next (hostReadNTurn n out s) := by
  simp only [blockTurn, hact]

/-- Settles O25: the host's READ_N and a refill make the same turn of READ_N, which keeps its output, so that the command stands
where it stood. -/
theorem readNWaitsForBytes : Obligations.ReadNWaitsForBytes := by
  intro s hagenda hshort hlink hpending
  rw [step_empty hagenda]
  rcases hpending with ⟨n, out, hact, hlack⟩ | ⟨c, atEntry, out, hact, hlack⟩
  · rw [blockTurn_readN hact]
    simp only [hostReadNTurn, readNTurn_of_waiting hshort hlink hlack, ← hact]
  · rw [blockTurn_refill hact]
    simp only [refillTurn, Config.refillBatch_eq, readNTurn_of_waiting hshort hlink hlack, ← hact]

/-- The model drops from EVT what 60_exceptions.md R166 calls void. -/
theorem validEvents_eq_evtWithoutTheRead (s : State) : validEvents s = evtWithoutTheRead s := rfl

/-- TransportError after the failed `RxTake` has lost its bytes. -/
theorem raise_of_broken (s : State) :
    raise .transportError { s with fs := { s.fs with asm := [] }, rx := [] } = transportErrorState s := by
  rw [transportErrorState, ← validEvents_eq_evtWithoutTheRead]
  rfl

/-- Settles O26: the failed turn of READ_N raises, for the host's command and for a refill alike. -/
theorem brokenTransportHaltsTheBlock : Obligations.BrokenTransportHaltsTheBlock := by
  intro s hagenda hshort hlink hpending
  rw [step_empty hagenda, ← raise_of_broken]
  rcases hpending with ⟨n, out, hact, hlack⟩ | ⟨c, atEntry, out, hact, hlack⟩
  · rw [blockTurn_readN hact, hostReadNTurn, readNTurn_of_broken hshort hlink hlack]
  · rw [blockTurn_refill hact, refillTurn, Config.refillBatch_eq, readNTurn_of_broken hshort hlink hlack]

/-! ## The halted block (60_exceptions.md R166, R167) -/

/-- What a halted block keeps until RESET: `ST`, the command, FS, `BUF`, `EV` and LF (log 10). -/
structure SameBlock (s t : State) : Prop where
  st : t.st = s.st
  act : t.act = s.act
  fs : t.fs = s.fs
  buf : t.buf = s.buf
  ev : t.ev = s.ev
  lf : t.lf = s.lf

theorem SameBlock.refl (s : State) : SameBlock s s := ⟨rfl, rfl, rfl, rfl, rfl, rfl⟩

/-- A halted block refuses every command but RESET; the other actions of the host touch none of these fields (60_exceptions.md
R176). -/
theorem hostTurn_sameBlock_of_halted {s : State} (hhalted : s.st.err ≠ 0) {a : HostAct} (ha : a ≠ .reset) :
    SameBlock s (hostTurn a s) := by
  rcases hostTurn_cases a s with heq | ⟨hreset, -⟩ | ⟨ep, -, herr, -⟩ | ⟨w, -, -, heq⟩ | ⟨-, -, herr, -⟩ |
    ⟨-, -, herr, -⟩ | ⟨n, -, -, herr, -⟩ | ⟨-, heq⟩ | ⟨e, rest, -, -, heq⟩ | ⟨-, -, heq⟩
  · rw [heq]
    exact .refl s
  · exact absurd hreset ha
  · exact absurd herr hhalted
  · rw [heq]
    constructor <;> rfl
  · exact absurd herr hhalted
  · exact absurd herr hhalted
  · exact absurd herr hhalted
  all_goals rw [heq]; constructor <;> rfl

theorem transportTurn_sameBlock (a : TransportAct) (s : State) : SameBlock s (transportTurn a s) := by
  rcases transportTurn_cases a s with heq | ⟨eps, -, heq⟩ | ⟨bytes, -, -, heq⟩ | ⟨-, -, heq⟩ | ⟨-, -, heq⟩ <;>
    rw [heq] <;> constructor <;> rfl

/-- A halted block runs no command, so its own turns do nothing. -/
theorem step_sameBlock_of_halted {s t : State} (hinv : s.Inv) (hhalted : s.st.err ≠ 0)
    (hreset : ∀ later, s.agenda ≠ .host .reset :: later) (hstep : step s = .next t) : SameBlock s t := by
  have hidle : s.act = .idle := hinv.haltedIdle hhalted
  rcases step_cases s with ⟨s0, hagenda, heq⟩ | ⟨a, rest, hagenda, heq⟩ | ⟨a, rest, -, heq⟩
  · have hturn : blockTurn s0 = .next t := heq.symm.trans hstep
    rcases hagenda with ⟨-, rfl⟩ | ⟨rest, -, rfl⟩
    · cases (blockTurn_of_idle hidle).symm.trans hturn
      exact .refl _
    · cases (blockTurn_of_idle (s := { s with agenda := rest }) hidle).symm.trans hturn
      constructor <;> rfl
  · cases heq.symm.trans hstep
    have ha : a ≠ .reset := fun ha => hreset rest (ha ▸ hagenda)
    obtain ⟨hst, hact, hfs, hbuf, hev, hlf⟩ := hostTurn_sameBlock_of_halted (s := { s with agenda := rest }) hhalted ha
    exact ⟨hst, hact, hfs, hbuf, hev, hlf⟩
  · cases heq.symm.trans hstep
    obtain ⟨hst, hact, hfs, hbuf, hev, hlf⟩ := transportTurn_sameBlock a { s with agenda := rest }
    exact ⟨hst, hact, hfs, hbuf, hev, hlf⟩

/-- Settles O46: RESET gives `ST` its reset value, and every other step leaves the block as it was, idle by the invariant. -/
theorem haltedBlockStaysHaltedUntilReset : Obligations.HaltedBlockStaysHaltedUntilReset := by
  intro s t hinv hhalted hstep
  constructor
  · rintro ⟨later, hagenda⟩
    cases (step_host hagenda).symm.trans hstep
    exact ⟨rfl, rfl, rfl⟩
  · intro hreset
    obtain ⟨hst, hact, hfs, hbuf, hev, hlf⟩ := step_sameBlock_of_halted hinv hhalted hreset hstep
    exact ⟨hst, hact.trans (hinv.haltedIdle hhalted), hfs, hbuf, hev, hlf⟩

/-! ## What a turn does to `ST.err` and to what the host is handed (60_exceptions.md R160, R163, R165) -/

/-- Everything a turn can do with the error code and the replies: leave both, hand the host something that is no exception,
raise one of the two kinds in use, or clear the code. -/
inductive ErrorEffect (s t : State) : Prop
  | keeps (err : t.st.err = s.st.err) (replies : t.replies = s.replies)
  | answers (r : Reply) (hr : ∀ x, r ≠ .raised x) (err : t.st.err = s.st.err) (replies : t.replies = s.replies ++ [r])
  | raises (x : Exc) (hx : x ≠ .desyncTimeout) (err : t.st.err = x.code) (replies : t.replies = s.replies ++ [.raised x])
  | clears (err : t.st.err = 0) (replies : t.replies = s.replies)

/-- Code 3 belongs to DesyncTimeout alone (60_exceptions.md R160). -/
theorem code_eq_three_iff (x : Exc) : x.code = 3 ↔ x = .desyncTimeout := by
  cases x <;> decide

theorem ErrorEffect.no_desyncTimeout {s t : State} (h : ErrorEffect s t) :
    (t.st.err = 3 → s.st.err = 3) ∧ (.raised .desyncTimeout ∈ t.replies → .raised .desyncTimeout ∈ s.replies) := by
  cases h with
  | keeps err replies => exact ⟨err ▸ id, replies ▸ id⟩
  | answers r hr err replies => simp [err, replies, (hr _).symm]
  | raises x hx err replies =>
    exact ⟨fun hcode => absurd ((code_eq_three_iff x).1 (err.symm.trans hcode)) hx, by simp [replies, hx.symm]⟩
  | clears err replies => simp [err, replies]

theorem connectTurn_errorEffect (reached : Bool) (s : State) : ErrorEffect s (connectTurn reached s) := by
  cases reached with
  | false => exact .raises .connectionError nofun rfl rfl
  | true => exact .answers .connected nofun rfl rfl

/-- The exception that follows a turn of READ_N which failed. -/
theorem raise_transportError_errorEffect {s s1 : State} (h : ReadNFrame s s1) :
    ErrorEffect s (raise .transportError s1) :=
  .raises .transportError nofun rfl (by rw [raise_replies, (readNFrame_st_replies h).2])

theorem hostReadNTurn_errorEffect (n : Nat) (out : List RawWord) (s : State) :
    ErrorEffect s (hostReadNTurn n out s) := by
  rcases hostReadNTurn_cases n out s with ⟨out', s1, hframe, heq⟩ | heq | ⟨s1, hframe, heq⟩ <;> rw [heq]
  · obtain ⟨hst, hreplies⟩ := readNFrame_st_replies hframe
    exact .keeps (congrArg Status.err hst) hreplies
  · exact .answers (.words out) nofun rfl rfl
  · exact raise_transportError_errorEffect hframe

theorem refillTurn_errorEffect (c : Caller) (atEntry : Bool) (out : List RawWord) (s : State) :
    ErrorEffect s (refillTurn c atEntry out s) := by
  rcases refillTurn_cases c atEntry out s with ⟨out', s1, hframe, heq⟩ | heq | ⟨s1, hframe, heq⟩ <;> rw [heq]
  · obtain ⟨hst, hreplies⟩ := readNFrame_st_replies hframe
    exact .keeps (congrArg Status.err hst) hreplies
  · exact .keeps rfl rfl
  · exact raise_transportError_errorEffect hframe

theorem entryTurn_errorEffect (c : Caller) (s : State) : ErrorEffect s (entryTurn c s) := by
  rcases entryTurn_cases c s with ⟨-, -, heq⟩ | ⟨-, -, heq⟩ | ⟨-, heq⟩ <;> rw [heq]
  · exact .keeps rfl rfl
  · exact .keeps rfl rfl
  · exact .answers (.events s.lf.result) nofun rfl rfl

theorem deliver_errorEffect (c : Caller) (e : Event) (s : State) : ErrorEffect s (deliver c e s) := by
  cases c with
  | host => exact .answers (.event e) nofun rfl rfl
  | read r => exact .keeps rfl rfl

theorem blockTurn_errorEffect {s t : State} (hturn : blockTurn s = .next t) : ErrorEffect s t := by
  rcases blockTurn_cases s with ⟨-, heq⟩ | ⟨reached, -, heq⟩ | ⟨n, out, -, heq⟩ | ⟨c, -, heq⟩ |
    ⟨c, atEntry, out, -, heq⟩ | ⟨c, e, -, -, heq⟩ | ⟨c, -, -, -, heq⟩ | ⟨c, w, rest, -, -, -, heq⟩ <;>
    cases heq.symm.trans hturn
  · exact .keeps rfl rfl
  · exact connectTurn_errorEffect reached s
  · exact hostReadNTurn_errorEffect n out s
  · exact entryTurn_errorEffect c s
  · exact refillTurn_errorEffect c atEntry out s
  · exact deliver_errorEffect c e s
  · exact .keeps rfl rfl
  · exact .keeps rfl rfl

theorem hostTurn_errorEffect (a : HostAct) (s : State) : ErrorEffect s (hostTurn a s) := by
  rcases hostTurn_cases a s with heq | ⟨-, heq⟩ | ⟨ep, -, -, -, heq⟩ | ⟨w, -, -, heq⟩ | ⟨-, -, -, -, heq⟩ |
    ⟨-, -, -, -, heq⟩ | ⟨n, -, -, -, -, heq⟩ | ⟨-, heq⟩ | ⟨e, rest, -, -, heq⟩ | ⟨-, -, heq⟩ <;> rw [heq]
  · exact .keeps rfl rfl
  · exact .clears rfl rfl
  · exact .keeps rfl rfl
  · exact .keeps rfl rfl
  · exact .keeps rfl rfl
  · exact .keeps rfl rfl
  · exact .keeps rfl rfl
  · exact .answers (.status s.st s.fs.synced s.lf.logging) nofun rfl rfl
  · exact .answers (.taken e) nofun rfl rfl
  · exact .keeps rfl rfl

@[simp] theorem transportTurn_replies (a : TransportAct) (s : State) : (transportTurn a s).replies = s.replies := by
  rcases transportTurn_cases a s with heq | ⟨eps, -, heq⟩ | ⟨bytes, -, -, heq⟩ | ⟨-, -, heq⟩ | ⟨-, -, heq⟩ <;> simp [heq]

/-- The turn that is taken off the agenda is no part of the error code or of the replies. -/
theorem ErrorEffect.of_agenda {s t : State} {later : List Turn} (h : ErrorEffect { s with agenda := later } t) :
    ErrorEffect s t := by
  cases h with
  | keeps err replies => exact .keeps err replies
  | answers r hr err replies => exact .answers r hr err replies
  | raises x hx err replies => exact .raises x hx err replies
  | clears err replies => exact .clears err replies

theorem step_errorEffect {s t : State} (hstep : step s = .next t) : ErrorEffect s t := by
  rcases step_cases s with ⟨s0, hagenda, heq⟩ | ⟨a, rest, -, heq⟩ | ⟨a, rest, -, heq⟩
  · have hturn : ErrorEffect s0 t := blockTurn_errorEffect (heq.symm.trans hstep)
    rcases hagenda with ⟨-, rfl⟩ | ⟨rest, -, rfl⟩
    · exact hturn
    · exact hturn.of_agenda
  · cases heq.symm.trans hstep
    exact (hostTurn_errorEffect a _).of_agenda
  · cases heq.symm.trans hstep
    exact .keeps (by rw [transportTurn_st]) (transportTurn_replies _ _)

/-- Settles O49: the kinds a step can raise are ConnectionError and TransportError. -/
theorem desyncTimeoutIsNeverRaised : Obligations.DesyncTimeoutIsNeverRaised := by
  intro s t hstep
  exact (step_errorEffect hstep).no_desyncTimeout

/-! ## The conditions of the host's actions (60_exceptions.md R176, 90_conflicts.md C13) -/

/-- Each row that has an effect has it under its condition. -/
theorem hostTurn_of_not_accepts {s : State} {a : HostAct} (hrefused : ¬ accepts a s) : hostTurn a s = s := by
  rcases hostTurn_cases a s with heq | ⟨rfl, -⟩ | ⟨ep, rfl, herr, hbusy, -⟩ | ⟨w, rfl, hbusy, -⟩ |
    ⟨rfl, hconn, herr, hbusy, -⟩ | ⟨rfl, hconn, herr, hbusy, -⟩ | ⟨n, rfl, hconn, herr, hbusy, -⟩ | ⟨rfl, -⟩ |
    ⟨e, rest, rfl, hevt, -⟩ | ⟨rfl, -, -⟩
  · exact heq
  · exact absurd trivial hrefused
  · exact absurd ⟨herr, hbusy⟩ hrefused
  · exact absurd hbusy hrefused
  · exact absurd ⟨hconn, herr, hbusy⟩ hrefused
  · exact absurd ⟨hconn, herr, hbusy⟩ hrefused
  · exact absurd ⟨hconn, herr, hbusy⟩ hrefused
  · exact absurd trivial hrefused
  · exact absurd (by simp [accepts, hevt]) hrefused
  · exact absurd trivial hrefused

/-- Settles O50: the step takes the turn off the agenda and the refused action does nothing more. -/
theorem refusedHostActionsHaveNoEffect : Obligations.RefusedHostActionsHaveNoEffect := by
  intro s a later hagenda hrefused
  rw [step_host hagenda, hostTurn_of_not_accepts (s := { s with agenda := later }) hrefused]

theorem hostTurn_decodeOne {s : State} (hconn : s.st.connected = true) (herr : s.st.err = 0)
    (hbusy : s.st.busy = false) : hostTurn .decodeOne s = startCommand (.decode .host .entry) s := by
  simp [hostTurn, Status.ready, Status.halted, hconn, herr, hbusy]

/-- Settles O52: both start with `startCommand`, which holds `ST.busy` and the activity. -/
theorem directCommandsHoldBusy : Obligations.DirectCommandsHoldBusy := by
  intro s later hconn herr hbusy
  constructor
  · intro hagenda
    rw [step_host hagenda, hostTurn_decodeOne (s := { s with agenda := later }) hconn herr hbusy]
    rfl
  · intro n hagenda
    exact step_readN hconn herr hbusy hagenda

end Sys2Proof.Proofs
end

section
/-! PROOFS. The statements of spec/70_reset_and_hazards.md: the state that RESET and power-up leave. -/

namespace Sys2Proof.Proofs

open Sys2Proof.Machine Sys2Proof.Laws

/-! ## RESET (70_reset_and_hazards.md R190, 10_state.md R29) -/

/-- RESET is accepted in every state, whatever command is in progress (60_exceptions.md R176). -/
theorem step_reset {s : State} {later : List Turn} (h : s.agenda = .host .reset :: later) :
    step s = .next (resetBlock { s with agenda := later }) :=
  step_host h

/-- Settles O47: the one step is `resetBlock`, whose fields are known whatever the state was; power-up is `State.reset`, which
is those values as written. -/
theorem resetGivesTheResetValues : Obligations.ResetGivesTheResetValues := by
  refine ⟨fun s later hagenda => ⟨_, step_reset hagenda, ?_⟩, rfl, rfl, rfl, rfl, rfl, rfl⟩
  exact ⟨resetBlock_fs _, resetBlock_buf _, resetBlock_ev _, resetBlock_lf _, resetBlock_cfg _, resetBlock_st _,
    resetBlock_act _, resetBlock_link _⟩

end Sys2Proof.Proofs
end

section
/-! PROOFS. The statements that the spec marks as its own inferences, and those on the model's own choices: words through FS, ED
and LF as the pure forms have them, the refills of `BUF`, ignored bits, the connection, EVT, and what RESET keeps. -/

namespace Sys2Proof.Proofs

open Sys2Proof.Machine Sys2Proof.Laws Sys2Proof.Statements

/-! ## What a turn of READ_N leaves as it was -/

theorem readNFrame_buf {s u : State} (h : ReadNFrame s u) : u.buf = s.buf := by rw [h.1]

theorem readNFrame_ev_fin_evt {s u : State} (h : ReadNFrame s u) : u.ev = s.ev ∧ u.fin = s.fin ∧ u.evt = s.evt := by
  rw [h.1]
  exact ⟨rfl, rfl, rfl⟩

theorem readNFrame_agenda {s u : State} (h : ReadNFrame s u) : u.agenda = s.agenda := by rw [h.1]

theorem readNFrame_refills {s u : State} (h : ReadNFrame s u) : u.refills = s.refills := by rw [h.1]

/-! ## What FS still holds (40_frame_sync.md R90, section 4) -/

/-- The whole records among the bytes that have arrived and are not yet taken. -/
def recordsAtHand (s : State) : List RawWord := recordsOf (s.fs.asm ++ s.rx)

/-- The words FS will make of them. -/
def incoming (s : State) : List RawWord := syncWords s.fs.synced (recordsAtHand s)

theorem pendingWords_eq (s : State) : s.pendingWords = s.buf ++ s.act.refillOut ++ incoming s := rfl

@[simp] theorem syncWords_true (ws : List RawWord) : syncWords true ws = ws := by
  cases ws <;> rfl

/-- One FS word step is one step of `sync` (40_frame_sync.md R81, R82, R83, R90). -/
theorem syncWords_cons (synced : Bool) (w : RawWord) (ws : List RawWord) :
    syncWords synced (w :: ws) = fsOutput synced w ++ syncWords (syncedAfter synced w.word) ws := by
  cases synced with
  | true => simp [fsOutput, syncedAfter]
  | false => cases hmark : terminatorBit w.word <;> simp [syncWords, fsOutput, syncedAfter, hmark]

/-- What turns of READ_N(n) that go on do, from `out` and `s` to `out'` and `u`: the words it has collected followed by those still to
come are kept, and so is the number of records taken and at hand. -/
structure Takes (n : Nat) (out : List RawWord) (s : State) (out' : List RawWord) (u : State) : Prop where
  frame : ReadNFrame s u
  collects : Collects n s.fs out u.fs out'
  words : out' ++ incoming u = out ++ incoming s
  records : u.rxRecords + (recordsAtHand u).length = s.rxRecords + (recordsAtHand s).length

theorem takes_record {n : Nat} {out : List RawWord} {s : State} {w : RawWord} {rec rest : List Byte}
    (hlack : out.length < n) (hbytes : s.fs.asm ++ s.rx = rec ++ rest) (hrec : parseRecord rec = .ok w) :
    Takes n out s (out ++ fsOutput s.fs.synced w)
      { s with
        fs := { synced := syncedAfter s.fs.synced w.word, asm := [] }
        rx := rest
        rxRecords := s.rxRecords + 1 } := by
  have hcut : recordsAtHand s = w :: recordsOf rest := by
    rw [recordsAtHand, hbytes, recordsOf_append_record hrec]
  refine ⟨⟨rfl, fun hsync => by simp [syncedAfter, hsync]⟩, collects_record hlack s.fs w, ?words, ?records⟩
  case words => rw [incoming, incoming, hcut, syncWords_cons, List.append_assoc]; rfl
  case records =>
    rw [hcut, List.length_cons]
    simp only [recordsAtHand, List.nil_append]
    omega

theorem takes_wait {n : Nat} {out : List RawWord} {s : State} (hlack : out.length < n)
    (hshort : (s.fs.asm ++ s.rx).length < 8) :
    Takes n out s out { s with fs := { s.fs with asm := s.fs.asm ++ s.rx }, rx := [] } := by
  refine ⟨⟨rfl, id⟩, collects_wait hlack s.fs hshort, ?words, ?records⟩ <;>
    simp only [incoming, recordsAtHand, List.append_nil]

/-- One turn of READ_N, in what it means for the words to come (40_frame_sync.md R85, R87). -/
theorem readNTurn_takes (n : Nat) (out : List RawWord) {s : State} (hasm : s.fs.asm.length ≤ 7) :
    (n ≤ out.length ∧ readNTurn n out s = .returned s) ∨
    (∃ out' u, Takes n out s out' u ∧ readNTurn n out s = .going out' u) ∨
    ((s.fs.asm ++ s.rx).length < 8 ∧
      readNTurn n out s = .failed { s with fs := { s.fs with asm := [] }, rx := [] }) := by
  rcases readNTurn_cases (n := n) (out := out) (Nat.le_succ_of_le hasm) with
    hreturned | ⟨hlack, w, _, rest, hbytes, hrec, heq⟩ | ⟨hlack, hshort, -, heq⟩ | ⟨-, hshort, -, heq⟩
  · exact .inl hreturned
  · exact .inr (.inl ⟨_, _, takes_record hlack hbytes hrec, heq⟩)
  · exact .inr (.inl ⟨_, _, takes_wait hlack hshort, heq⟩)
  · exact .inr (.inr ⟨hshort, heq⟩)

/-- One turn of a host's READ_N (40_frame_sync.md R85, R87). -/
theorem hostReadNTurn_takes (n : Nat) (out : List RawWord) {s : State} (hasm : s.fs.asm.length ≤ 7) :
    (n ≤ out.length ∧ hostReadNTurn n out s = commandReturn (.words out) s) ∨
    (∃ out' u, Takes n out s out' u ∧ hostReadNTurn n out s = { u with act := .readN n out' }) ∨
    ((s.fs.asm ++ s.rx).length < 8 ∧ hostReadNTurn n out s = transportErrorState s) := by
  rcases readNTurn_takes n out hasm with ⟨hfull, heq⟩ | ⟨out', u, htakes, heq⟩ | ⟨hshort, heq⟩
  · exact .inl ⟨hfull, by rw [hostReadNTurn, heq]⟩
  · exact .inr (.inl ⟨out', u, htakes, by rw [hostReadNTurn, heq]⟩)
  · exact .inr (.inr ⟨hshort, by rw [hostReadNTurn, heq, ← raise_of_broken]⟩)

/-- One turn of a refill (42_event_assembly.md R126, R128). -/
theorem refillTurn_takes (c : Caller) (atEntry : Bool) (out : List RawWord) {s : State} (hasm : s.fs.asm.length ≤ 7) :
    (refillTurn c atEntry out s = { s with
      buf := s.buf ++ out, act := .decode c .words, ev := if atEntry then Event.default else s.ev }) ∨
    (∃ out' u, Takes Config.refillBatch out s out' u ∧
      refillTurn c atEntry out s = { u with act := .decode c (.refill atEntry out') }) ∨
    ((s.fs.asm ++ s.rx).length < 8 ∧ refillTurn c atEntry out s = transportErrorState s) := by
  rcases readNTurn_takes Config.refillBatch out hasm with ⟨-, heq⟩ | ⟨out', u, htakes, heq⟩ | ⟨hshort, heq⟩
  · refine .inl ?_
    rw [refillTurn, heq]
    cases atEntry <;> rfl
  · exact .inr (.inl ⟨out', u, htakes, by rw [refillTurn, heq]⟩)
  · exact .inr (.inr ⟨hshort, by rw [refillTurn, heq, ← raise_of_broken]⟩)

/-- A refill that goes on moves words from RX to its output. -/
theorem pendingWords_of_takes {c : Caller} {atEntry : Bool} {n : Nat} {out out' : List RawWord} {s u : State}
    (hact : s.act = .decode c (.refill atEntry out)) (htakes : Takes n out s out' u) :
    ({ u with act := .decode c (.refill atEntry out') } : State).pendingWords = s.pendingWords := by
  rw [pendingWords_eq, pendingWords_eq, hact]
  calc u.buf ++ out' ++ incoming u = s.buf ++ (out' ++ incoming u) := by
        rw [readNFrame_buf htakes.frame, List.append_assoc]
    _ = s.buf ++ out ++ incoming s := by rw [htakes.words, List.append_assoc]

/-- A refill that ends moves its output to `BUF`. -/
theorem pendingWords_of_append {c : Caller} {atEntry : Bool} {out : List RawWord} {s : State}
    (hact : s.act = .decode c (.refill atEntry out)) (ev : Event) :
    ({ s with buf := s.buf ++ out, act := .decode c .words, ev := ev } : State).pendingWords = s.pendingWords := by
  rw [pendingWords_eq, pendingWords_eq, hact]
  simp only [Activity.refillOut, List.append_nil]
  rfl

/-- Settles O60: by what the turn of READ_N inside the command comes to. -/
theorem readNTurnConservesTheSyncedStream : Obligations.ReadNTurnConservesTheSyncedStream := by
  intro s t hagenda hasm hstep
  rw [step_empty hagenda] at hstep
  constructor
  · intro n out hact
    cases (blockTurn_readN hact).symm.trans hstep
    rcases hostReadNTurn_takes n out hasm with ⟨hfull, heq⟩ | ⟨out', u, htakes, heq⟩ | ⟨hshort, heq⟩ <;> rw [heq]
    · exact .inr (.inl ⟨hfull, rfl, rfl, rfl, rfl⟩)
    · exact .inl ⟨out', rfl, htakes.words⟩
    · exact .inr (.inr ⟨hshort, rfl, rfl⟩)
  · intro c atEntry out hact
    cases (blockTurn_refill hact).symm.trans hstep
    rcases refillTurn_takes c atEntry out hasm with heq | ⟨out', u, htakes, heq⟩ | ⟨hshort, heq⟩ <;> rw [heq]
    · exact .inl ⟨⟨.words, rfl⟩, pendingWords_of_append hact _⟩
    · exact .inl ⟨⟨.refill atEntry out', rfl⟩, pendingWords_of_takes hact htakes⟩
    · exact .inr ⟨hshort, rfl, rfl⟩

/-! ## A READ as a filter on the Events its words hold (42_event_assembly.md R130, 43_lock_cycle_filter.md R152) -/

theorem pendingEvents_congr {s t : State} (hfin : t.fin = s.fin) (hev : t.ev = s.ev)
    (hwords : t.pendingWords = s.pendingWords) : t.pendingEvents = s.pendingEvents := by
  rw [State.pendingEvents, State.pendingEvents, hfin, hev, hwords]

/-- ED finalizes an Event on a terminator and goes on with it on any other word (42_event_assembly.md R130). -/
theorem assembleFrom_cons (ev : Event) (V : Word) (rest : List Word) :
    (assembleFrom ev (V :: rest)).1 =
      (if terminatorBit V then some (wordEvent V ev) else none).toList ++
        (assembleFrom (if terminatorBit V then Event.default else wordEvent V ev) rest).1 := by
  cases hend : terminatorBit V <;> simp [assembleFrom, hend]

/-- What LF makes of an Event: it goes to the result and to EVT alike, or to neither. -/
def passed (c : Cfg) (logging : Bool) (e : Event) : List Event := if appends logging c e then [e] else []

/-- One LF Event step is one step of `lf` (43_lock_cycle_filter.md R140, R152). -/
theorem filterFrom_cons (c : Cfg) (logging : Bool) (e : Event) (rest : List Event) :
    filterFrom c logging (e :: rest) = passed c logging e ++ filterFrom c (loggingAfter logging c e) rest := by
  cases happ : appends logging c e <;> simp [filterFrom, passed, happ]

/-- What one turn of the block inside a READ can do: move words towards the Event in progress, give the finalized Event to LF,
complete the READ, or end it by TransportError. -/
inductive ReadTurn (c : Cfg) (s t : State) : Prop
  | assembles (ph : Phase) (act : t.act = .decode (.read c) ph) (st : t.st = s.st) (replies : t.replies = s.replies)
      (lf : t.lf = s.lf) (evt : t.evt = s.evt) (pending : t.pendingEvents = s.pendingEvents)
  | filters (e : Event) (eq : t = lfStep c e { s with fin := none, act := .decode (.read c) .entry })
      (pending : s.pendingEvents = e :: t.pendingEvents)
  | completes (full : wantsMore c s.lf.count = false) (eq : t = readComplete s)
      (pending : t.pendingEvents = s.pendingEvents)
  | raises (eq : t = transportErrorState s)

theorem readTurn_refill {s : State} {c : Cfg} {atEntry : Bool} {out : List RawWord} (hinv : s.Inv)
    (hact : s.act = .decode (.read c) (.refill atEntry out)) :
    ReadTurn c s (refillTurn (.read c) atEntry out s) := by
  rcases refillTurn_takes (.read c) atEntry out hinv.asmShort with heq | ⟨out', u, htakes, heq⟩ | ⟨-, heq⟩ <;> rw [heq]
  · have hev : (if atEntry then Event.default else s.ev) = s.ev := by
      cases atEntry with
      | false => rfl
      | true =>
        have herr : s.st.err = 0 := err_zero_of_busy hinv (by simp [hact])
        exact (hinv.evBoundary herr (by rw [hact]; rfl)).symm
    exact .assembles .words rfl rfl rfl rfl rfl (pendingEvents_congr rfl hev (pendingWords_of_append hact _))
  · obtain ⟨hst, hreplies⟩ := readNFrame_st_replies htakes.frame
    obtain ⟨hev, hfin, hevt⟩ := readNFrame_ev_fin_evt htakes.frame
    have hlf : u.lf = s.lf := readNFrame_lf htakes.frame
    exact .assembles (.refill atEntry out') rfl hst hreplies hlf hevt
      (pendingEvents_congr hfin hev (pendingWords_of_takes hact htakes))
  · exact .raises rfl

/-- The words pending while no refill is in progress. -/
theorem pendingWords_of_refillOut_nil {s : State} (h : s.act.refillOut = []) :
    s.pendingWords = s.buf ++ incoming s := by
  rw [pendingWords_eq, h, List.append_nil]

/-- A turn outside the refills that keeps `BUF` and FS keeps the words pending. -/
theorem pendingWords_congr {s t : State} (hs : s.act.refillOut = []) (ht : t.act.refillOut = []) (hbuf : t.buf = s.buf)
    (hincoming : incoming t = incoming s) : t.pendingWords = s.pendingWords := by
  rw [pendingWords_of_refillOut_nil hs, pendingWords_of_refillOut_nil ht, hbuf, hincoming]

theorem readTurn_entry {s : State} {c : Cfg} (hinv : s.Inv) (hact : s.act = .decode (.read c) .entry) :
    ReadTurn c s (entryTurn (.read c) s) := by
  have hout : s.act.refillOut = [] := by rw [hact]; rfl
  have herr : s.st.err = 0 := err_zero_of_busy hinv (by simp [hact])
  have hev : s.ev = Event.default := hinv.evBoundary herr (by rw [hact]; rfl)
  rcases entryTurn_cases (.read c) s with ⟨-, -, heq⟩ | ⟨-, -, heq⟩ | ⟨hfull, heq⟩ <;> rw [heq]
  · exact .assembles (.refill true []) rfl rfl rfl rfl rfl
      (pendingEvents_congr rfl rfl (pendingWords_congr hout rfl rfl rfl))
  · exact .assembles .words rfl rfl rfl rfl rfl
      (pendingEvents_congr rfl hev.symm (pendingWords_congr hout rfl rfl rfl))
  · exact .completes hfull rfl (pendingEvents_congr rfl rfl (pendingWords_congr hout rfl rfl rfl))

theorem readTurn_deliver {s : State} {c : Cfg} {e : Event} (hact : s.act = .decode (.read c) .words)
    (hfin : s.fin = some e) : ReadTurn c s (deliver (.read c) e s) := by
  have hout : s.act.refillOut = [] := by rw [hact]; rfl
  have hwords : (deliver (.read c) e s).pendingWords = s.pendingWords := pendingWords_congr hout rfl rfl rfl
  refine .filters e rfl ?_
  rw [State.pendingEvents, State.pendingEvents, hwords, hfin]
  rfl

theorem readTurn_pop {s : State} {c : Cfg} {w : RawWord} {rest : List RawWord} (hact : s.act = .decode (.read c) .words)
    (hfin : s.fin = none) (hbuf : s.buf = w :: rest) :
    ReadTurn c s { s with
      buf := rest
      ev := if terminatorBit w.word then Event.default else wordEvent w.word s.ev
      fin := if terminatorBit w.word then some (wordEvent w.word s.ev) else none } := by
  refine .assembles .words hact rfl rfl rfl rfl ?_
  have hout : s.act.refillOut = [] := by rw [hact]; rfl
  have hpending : s.pendingEvents = (assembleFrom s.ev ((w :: (rest ++ incoming s)).map RawWord.word)).1 := by
    rw [State.pendingEvents, hfin, pendingWords_of_refillOut_nil hout, hbuf]
    rfl
  rw [hpending, List.map_cons, assembleFrom_cons, State.pendingEvents, pendingWords_of_refillOut_nil (by exact hout)]
  rfl

theorem blockTurn_readTurn {s t : State} {c : Cfg} {ph : Phase} (hinv : s.Inv) (hact : s.act = .decode (.read c) ph)
    (hturn : blockTurn s = .next t) : ReadTurn c s t := by
  rcases blockTurn_cases s with ⟨hs, heq⟩ | ⟨reached, hs, heq⟩ | ⟨n, out, hs, heq⟩ | ⟨c, hs, heq⟩ |
    ⟨c, atEntry, out, hs, heq⟩ | ⟨c, e, hs, hfin, heq⟩ | ⟨c, hs, hfin, hbuf, heq⟩ | ⟨c, w, rest, hs, hfin, hbuf, heq⟩ <;>
    cases heq.symm.trans hturn <;> cases hact.symm.trans hs
  · exact readTurn_entry hinv hs
  · exact readTurn_refill hinv hs
  · exact readTurn_deliver hs hfin
  · have hout : s.act.refillOut = [] := by rw [hs]; rfl
    exact .assembles (.refill false []) rfl rfl rfl rfl rfl
      (pendingEvents_congr rfl rfl (pendingWords_congr hout rfl rfl rfl))
  · exact readTurn_pop hs hfin hbuf

/-- What a READ has appended, and then what the filter will still pass of the Events whose words have arrived. -/
def filteredStream (c : Cfg) (s : State) : List Event := s.lf.result ++ filterFrom c s.lf.logging s.pendingEvents

theorem filteredStream_congr {c : Cfg} {s t : State} (hlf : t.lf = s.lf) (hpending : t.pendingEvents = s.pendingEvents) :
    filteredStream c t = filteredStream c s := by
  rw [filteredStream, filteredStream, hlf, hpending]

theorem lfStep_result_passed (c : Cfg) (e : Event) (s : State) :
    (lfStep c e s).lf.result = s.lf.result ++ passed c s.lf.logging e := by
  cases happ : appends s.lf.logging c e <;> simp [passed, happ]

theorem lfStep_evt_passed (c : Cfg) (e : Event) (s : State) :
    (lfStep c e s).evt = s.evt ++ passed c s.lf.logging e := by
  cases happ : appends s.lf.logging c e <;> simp [passed, happ]

/-- A turn of a READ that does not fail keeps the filtered stream, and the result and EVT grow alike. -/
theorem ReadTurn.conserves {c : Cfg} {s t : State} (h : ReadTurn c s t) (herr : t.st.err = 0) :
    filteredStream c t = filteredStream c s ∧ ∃ new, t.lf.result = s.lf.result ++ new ∧ t.evt = s.evt ++ new := by
  cases h with
  | assembles ph act st replies lf evt pending =>
    exact ⟨filteredStream_congr lf pending, [], by simp [lf], by simp [evt]⟩
  | filters e eq pending =>
    have hresult : t.lf.result = s.lf.result ++ passed c s.lf.logging e := eq ▸ lfStep_result_passed c e _
    have hlogging : t.lf.logging = loggingAfter s.lf.logging c e := eq ▸ rfl
    refine ⟨?_, passed c s.lf.logging e, hresult, eq ▸ lfStep_evt_passed c e _⟩
    rw [filteredStream, filteredStream, pending, filterFrom_cons, hresult, hlogging, List.append_assoc]
  | completes full eq pending =>
    have hlf : t.lf = s.lf := eq ▸ rfl
    exact ⟨filteredStream_congr hlf pending, [], by simp [hlf], by simp [eq]⟩
  | raises eq =>
    rw [eq] at herr
    exact absurd herr (by simp [transportErrorState])

/-- Settles O43: a turn moves words towards an Event or an Event through the filter, and each is one step of its pure form. -/
theorem readConservesTheEventStream : Obligations.ReadConservesTheEventStream := by
  intro s t c ph hinv hagenda hact hstep herr
  rw [step_empty hagenda] at hstep
  exact (blockTurn_readTurn hinv hact hstep).conserves herr

/-! ## Runs in which only the block moves -/

@[simp] theorem connectTurn_agenda (reached : Bool) (s : State) : (connectTurn reached s).agenda = s.agenda := by
  cases reached <;> rfl

@[simp] theorem hostReadNTurn_agenda (n : Nat) (out : List RawWord) (s : State) :
    (hostReadNTurn n out s).agenda = s.agenda := by
  rcases hostReadNTurn_cases n out s with ⟨out', s1, hframe, heq⟩ | heq | ⟨s1, hframe, heq⟩
  · simp [heq, readNFrame_agenda hframe]
  · simp [heq]
  · simp [heq, readNFrame_agenda hframe]

@[simp] theorem refillTurn_agenda (c : Caller) (atEntry : Bool) (out : List RawWord) (s : State) :
    (refillTurn c atEntry out s).agenda = s.agenda := by
  rcases refillTurn_cases c atEntry out s with ⟨out', s1, hframe, heq⟩ | heq | ⟨s1, hframe, heq⟩
  · simp [heq, readNFrame_agenda hframe]
  · simp [heq]
  · simp [heq, readNFrame_agenda hframe]

@[simp] theorem entryTurn_agenda (c : Caller) (s : State) : (entryTurn c s).agenda = s.agenda := by
  rcases entryTurn_cases c s with ⟨-, -, heq⟩ | ⟨-, -, heq⟩ | ⟨-, heq⟩ <;> simp [heq]

@[simp] theorem deliver_agenda (c : Caller) (e : Event) (s : State) : (deliver c e s).agenda = s.agenda := by
  cases c <;> rfl

theorem blockTurn_agenda {s t : State} (h : blockTurn s = .next t) : t.agenda = s.agenda := by
  rcases blockTurn_cases s with ⟨-, heq⟩ | ⟨reached, -, heq⟩ | ⟨n, out, -, heq⟩ | ⟨c, -, heq⟩ |
    ⟨c, atEntry, out, -, heq⟩ | ⟨c, e, -, -, heq⟩ | ⟨c, -, -, -, heq⟩ | ⟨c, w, rest, -, -, -, heq⟩ <;>
    cases heq.symm.trans h
  · rfl
  · exact connectTurn_agenda reached s
  · exact hostReadNTurn_agenda n out s
  · exact entryTurn_agenda c s
  · exact refillTurn_agenda c atEntry out s
  · exact deliver_agenda c e s
  · rfl
  · rfl

/-- With no other agent's turn to come, what every turn of the block keeps holds at the end of the run. -/
theorem runFor_keeps_alone {P : State → Prop} (hP : ∀ s t, P s → blockTurn s = .next t → P t) {k : Nat} {s t : State}
    (hagenda : s.agenda = []) (hs : P s) (h : runFor k s = .next t) : P t := by
  have hkeeps : ∀ u v, u.agenda = [] ∧ P u → step u = .next v → v.agenda = [] ∧ P v := by
    rintro u v ⟨hu, hPu⟩ hstep
    rw [step_empty hu] at hstep
    exact ⟨(blockTurn_agenda hstep).trans hu, hP u v hPu hstep⟩
  exact (runFor_keeps (P := fun u => u.agenda = [] ∧ P u) hkeeps ⟨hagenda, hs⟩ h).2

/-! ## READ_N from its start to its return (40_frame_sync.md R85, R90) -/

theorem syncWords_length_le (synced : Bool) (ws : List RawWord) : (syncWords synced ws).length ≤ ws.length := by
  induction ws generalizing synced with
  | nil => cases synced <;> simp [syncWords]
  | cons w ws ih =>
    have htail := ih (syncedAfter synced w.word)
    rw [syncWords_cons, List.length_append, List.length_cons]
    cases synced <;> simp [fsOutput] at htail ⊢ <;> omega

theorem takes_refl {n : Nat} {out : List RawWord} {s : State} (hlack : out.length < n) (hasm : s.fs.asm.length ≤ 7) :
    Takes n out s out s where
  frame := ⟨rfl, id⟩
  collects := collects_wait hlack s.fs (Nat.lt_succ_of_le hasm)
  words := rfl
  records := rfl

theorem Takes.trans {n : Nat} {out out' out'' : List RawWord} {s u v : State} (h : Takes n out s out' u)
    (h' : Takes n out' u out'' v) : Takes n out s out'' v where
  frame := by
    refine ⟨?_, fun hsync => h'.frame.2 (h.frame.2 hsync)⟩
    rw [h'.frame.1, h.frame.1]
  collects :=
    { h'.collects with
      lacking := h.collects.lacking
      unsynced := fun hv => by
        obtain ⟨hu, rfl⟩ := h'.collects.unsynced hv
        exact h.collects.unsynced hu }
  words := h'.words.trans h.words
  records := h'.records.trans h.records

/-- What a READ_N has collected is no part of FS or RX. -/
theorem Takes.with_act {n : Nat} {out out' : List RawWord} {s u : State} (h : Takes n out s out' u) (a : Activity) :
    Takes n out { s with act := a } out' { u with act := a } where
  frame := ⟨by conv_lhs => rw [h.frame.1], h.frame.2⟩
  collects := h.collects
  words := h.words
  records := h.records

/-- A READ_N that has all it was asked for has the first words of `sync`, and leaves FS synced between two records. -/
structure TakesAll (n : Nat) (s : State) (out : List RawWord) (u : State) : Prop where
  length : out.length = n
  out_eq : out = (incoming s).take n
  records : u.rxRecords = s.rxRecords + ((recordsAtHand s).length - (incoming s).length) + n
  synced : u.fs.synced = true
  asm : u.fs.asm = []
  rest : recordsOf u.rx = (incoming s).drop n

theorem Takes.takesAll {n : Nat} {s u : State} {out : List RawWord} (h : Takes n [] s out u) (hfull : n ≤ out.length) :
    TakesAll n s out u := by
  have hlength : out.length = n := Nat.le_antisymm h.collects.bound hfull
  have hasm : u.fs.asm = [] := h.collects.asmEmpty hfull
  have hsynced : u.fs.synced = true := by
    by_contra hun
    obtain ⟨-, rfl⟩ := h.collects.unsynced (Bool.eq_false_iff.2 hun)
    exact absurd h.collects.lacking (Nat.not_lt.2 hfull)
  have hincoming : incoming u = recordsOf u.rx := by
    rw [incoming, recordsAtHand, hsynced, hasm, syncWords_true, List.nil_append]
  have hwords : out ++ recordsOf u.rx = incoming s := hincoming ▸ h.words
  have hleft : recordsAtHand u = recordsOf u.rx := by rw [recordsAtHand, hasm, List.nil_append]
  have hrecords := h.records
  have hsum : out.length + (recordsOf u.rx).length = (incoming s).length := by rw [← hwords, List.length_append]
  have hle : (incoming s).length ≤ (recordsAtHand s).length := syncWords_length_le _ _
  rw [hleft] at hrecords
  exact
    { length := hlength
      out_eq := by rw [← hwords, List.take_left' hlength]
      records := by omega
      synced := hsynced
      asm := hasm
      rest := by rw [← hwords, List.drop_left' hlength] }

/-- Where a READ_N(n) that began in `s` can stand: it collects, it has returned, or TransportError has ended it. -/
inductive ReadNProgress (n : Nat) (s t : State) : Prop
  | collecting (out : List RawWord) (act : t.act = .readN n out) (takes : Takes n [] s out { t with act := s.act })
  | returned (out : List RawWord) (u : State) (all : TakesAll n s out u) (frame : ReadNFrame s u)
      (eq : t = commandReturn (.words out) u)
  | raised (act : t.act = .idle) (err : t.st.err = 2)

theorem blockTurn_readNProgress {n : Nat} {s t t' : State} (h : ReadNProgress n s t) (hturn : blockTurn t = .next t') :
    ReadNProgress n s t' := by
  cases h with
  | collecting out act takes =>
    cases (blockTurn_readN act).symm.trans hturn
    have hasm : t.fs.asm.length ≤ 7 := takes.collects.asmShort
    rcases hostReadNTurn_takes n out hasm with ⟨hfull, heq⟩ | ⟨out', u, htakes, heq⟩ | ⟨-, heq⟩ <;>
      rw [heq]
    · exact .returned out _ (takes.takesAll hfull) takes.frame rfl
    · exact .collecting out' rfl (takes.trans (htakes.with_act s.act))
    · exact .raised rfl rfl
  | returned out u all frame eq =>
    cases (blockTurn_of_idle (eq ▸ rfl)).symm.trans hturn
    exact .returned out u all frame eq
  | raised act err =>
    cases (blockTurn_of_idle act).symm.trans hturn
    exact .raised act err

/-- Settles O28: of the three places a READ_N can stand, only one is idle without an error. -/
theorem readNReturnsTheSyncedStream : Obligations.ReadNReturnsTheSyncedStream := by
  intro s t n k hagenda hact _ hn hasm hrun hidle herr
  have hstart : ReadNProgress n s s := .collecting [] hact (takes_refl hn hasm)
  have hend : ReadNProgress n s t := runFor_keeps_alone (fun _ _ => blockTurn_readNProgress) hagenda hstart hrun
  cases hend with
  | collecting out act takes => cases hidle.symm.trans act
  | raised act err => cases herr.symm.trans err
  | returned out u all frame eq =>
    subst eq
    have hlength := all.length
    have hreplies : u.replies = s.replies := (readNFrame_st_replies frame).2
    have hev : u.ev = s.ev := (readNFrame_ev_fin_evt frame).1
    have hbuf : u.buf = s.buf := readNFrame_buf frame
    rw [all.out_eq] at hlength ⊢
    exact ⟨hlength, by rw [commandReturn_replies, hreplies]; rfl, all.records, all.synced, all.asm, all.rest, hbuf, hev⟩

/-! ## A bounded READ from its start to its completion (43_lock_cycle_filter.md R145, R148, R149, R152) -/

/-- Where a READ that began in `s` can stand: it runs, it has completed by count, or TransportError has ended it. -/
inductive ReadProgress (c : Cfg) (s t : State) : Prop
  | running (ph : Phase) (act : t.act = .decode (.read c) ph) (replies : t.replies = s.replies)
      (stream : filteredStream c t = filteredStream c s) (evt : t.evt = s.evt ++ t.lf.result)
  | completed (act : t.act = .idle) (replies : t.replies = s.replies ++ [.events t.lf.result])
      (stream : filteredStream c t = filteredStream c s) (evt : t.evt = s.evt ++ t.lf.result)
      (length : t.lf.result.length = c.n)
  | raised (act : t.act = .idle) (done : t.st.done = false)

/-- The loop test of a bounded READ fails at exactly `n` Events (43_lock_cycle_filter.md R145, R149). -/
theorem result_length_of_full {s : State} {c : Cfg} {ph : Phase} (hinv : s.Inv) (hact : s.act = .decode (.read c) ph)
    (hbounded : c.unbounded = false) (hfull : wantsMore c s.lf.count = false) : s.lf.result.length = c.n := by
  have hle : s.lf.count ≤ c.n := (hinv.readBound c ph hact hbounded).1
  have hge : c.n ≤ s.lf.count := by simpa [wantsMore, hbounded] using hfull
  rw [← hinv.countResult]
  exact Nat.le_antisymm hle hge

theorem blockTurn_readProgress {c : Cfg} {s t t' : State} (hbounded : c.unbounded = false) (hinv : t.Inv)
    (h : ReadProgress c s t) (hturn : blockTurn t = .next t') : ReadProgress c s t' := by
  cases h with
  | running ph act replies stream evt =>
    have herr : t.st.err = 0 := err_zero_of_busy hinv (by simp [act])
    have hread : ReadTurn c t t' := blockTurn_readTurn hinv act hturn
    have hkept (herr' : t'.st.err = 0) :
        filteredStream c t' = filteredStream c s ∧ t'.evt = s.evt ++ t'.lf.result := by
      obtain ⟨hstream, new, hresult, hevt⟩ := hread.conserves herr'
      exact ⟨hstream.trans stream, by rw [hevt, hresult, evt, List.append_assoc]⟩
    cases hread with
    | assembles ph' act' st' replies' lf' evt' pending' =>
      obtain ⟨hstream, hevt⟩ := hkept (st'.symm ▸ herr)
      exact .running ph' act' (replies'.trans replies) hstream hevt
    | filters e eq pending' =>
      obtain ⟨hstream, hevt⟩ := hkept (eq ▸ herr)
      exact .running .entry (eq ▸ rfl) (eq ▸ replies) hstream hevt
    | completes full eq pending' =>
      obtain ⟨hstream, hevt⟩ := hkept (eq ▸ herr)
      have hlength : t.lf.result.length = c.n := result_length_of_full hinv act hbounded full
      exact .completed (eq ▸ rfl) (by simp [eq, replies]) hstream hevt (eq ▸ hlength)
    | raises eq => exact .raised (eq ▸ rfl) (eq ▸ rfl)
  | completed act replies stream evt length =>
    cases (blockTurn_of_idle act).symm.trans hturn
    exact .completed act replies stream evt length
  | raised act done =>
    cases (blockTurn_of_idle act).symm.trans hturn
    exact .raised act done

/-- At the start of a READ the filter still has all before it (10_state.md R14, 42_event_assembly.md R130). -/
theorem filteredStream_of_start {c : Cfg} {s : State} (hinv : s.Inv) (hact : s.act = .decode (.read c) .entry)
    (hlf : s.lf = { logging := false, count := 0, result := [] }) :
    filteredStream c s = filterEvents c (assemble ((s.buf ++ incoming s).map RawWord.word)).1 := by
  have hfin : s.fin = none := fin_none_of_not_words hinv (by simp [hact])
  have herr : s.st.err = 0 := err_zero_of_busy hinv (by simp [hact])
  have hev : s.ev = Event.default := hinv.evBoundary herr (by rw [hact]; rfl)
  have hwords : s.pendingWords = s.buf ++ incoming s := pendingWords_of_refillOut_nil (by rw [hact]; rfl)
  rw [filteredStream, State.pendingEvents, hfin, hev, hwords, hlf]
  rfl

/-- Settles O44: of the places a READ can stand only completion sets `ST.done`, and there the result is the part of the
conserved stream that has been appended. -/
theorem readReturnsTheFirstFilteredEvents : Obligations.ReadReturnsTheFirstFilteredEvents := by
  intro s t c k hinv hagenda hact hlf hbounded hrun hdone
  have hstart : s.Inv ∧ ReadProgress c s s := ⟨hinv, .running .entry hact rfl rfl (by simp [hlf])⟩
  have hend : t.Inv ∧ ReadProgress c s t := by
    refine runFor_keeps_alone (P := fun u => u.Inv ∧ ReadProgress c s u) ?_ hagenda hstart hrun
    rintro u v ⟨hu, hprogress⟩ hturn
    exact ⟨inv_blockTurn hu hturn, blockTurn_readProgress hbounded hu hprogress hturn⟩
  obtain ⟨hinv', hprogress⟩ := hend
  cases hprogress with
  | running ph act replies stream evt => cases hdone.symm.trans (done_false_of_read hinv' act)
  | raised act done => cases hdone.symm.trans done
  | completed act replies stream evt length =>
    refine ⟨?_, length, evt, replies⟩
    rw [filteredStream_of_start hinv hact hlf] at stream
    exact (List.take_left' length).symm.trans (congrArg (List.take c.n) stream)

/-! ## The occupancy of BUF and the refills (10_state.md R24, 42_event_assembly.md R124 to R126) -/

/-- Settles O34: the bound is a part of the invariant. -/
theorem bufferNeverExceedsItsDepth : Obligations.BufferNeverExceedsItsDepth := by
  intro s t k hinv hrun
  exact (runFor_keeps everyStepKeepsTheInvariant hinv hrun).bufBound

/-- DECODE_ONE is in progress, for the host or in a READ. -/
def decoding : Activity → Bool
  | .decode _ _ => true
  | .idle | .connecting _ | .readN _ _ => false

/-- DECODE_ONE is in progress and a refill in it. -/
def refilling : Activity → Bool
  | .decode _ (.refill _ _) => true
  | .decode _ .entry | .decode _ .words | .idle | .connecting _ | .readN _ _ => false

theorem decoding_iff {a : Activity} : decoding a = true ↔ ∃ c ph, a = .decode c ph := by
  cases a <;> simp [decoding]

theorem refilling_iff {a : Activity} : refilling a = true ↔ ∃ c atEntry out, a = .decode c (.refill atEntry out) := by
  rcases a with _ | _ | _ | ⟨c, _ | _ | _⟩ <;> simp [refilling]

/-- What one turn of the block can do to `BUF` and to the count of refills while DECODE_ONE is in progress. -/
inductive RefillEffect (s t : State) : Prop
  | ends (act : decoding t.act = false)
  | pops (before : refilling s.act = false) (act : decoding t.act = true) (after : refilling t.act = false)
      (refills : t.refills = s.refills) (buf : t.buf <:+ s.buf)
  | starts (before : refilling s.act = false) (after : refilling t.act = true) (refills : t.refills = s.refills + 1)
      (buf : t.buf = s.buf) (low : s.buf.length < 10)
  | collects (before : refilling s.act = true) (after : refilling t.act = true) (refills : t.refills = s.refills)
      (buf : t.buf = s.buf)
  | appends (before : refilling s.act = true) (act : decoding t.act = true) (after : refilling t.act = false)
      (refills : t.refills = s.refills)

theorem blockTurn_refillEffect {s t : State} (hdecoding : decoding s.act = true) (hturn : blockTurn s = .next t) :
    RefillEffect s t := by
  obtain ⟨c, ph, hact⟩ := decoding_iff.1 hdecoding
  rcases blockTurn_cases s with ⟨hs, heq⟩ | ⟨reached, hs, heq⟩ | ⟨n, out, hs, heq⟩ | ⟨c, hs, heq⟩ |
    ⟨c, atEntry, out, hs, heq⟩ | ⟨c, e, hs, -, heq⟩ | ⟨c, hs, -, hbuf, heq⟩ | ⟨c, w, rest, hs, -, hbuf, heq⟩ <;>
    cases heq.symm.trans hturn <;> cases hact.symm.trans hs
  · have hbefore : refilling s.act = false := by rw [hs]; rfl
    rcases entryTurn_cases c s with ⟨-, hlow, heq⟩ | ⟨-, -, heq⟩ | ⟨-, heq⟩ <;> rw [heq]
    · exact .starts hbefore rfl rfl rfl hlow
    · exact .pops hbefore rfl rfl rfl List.suffix_rfl
    · exact .ends rfl
  · have hbefore : refilling s.act = true := by rw [hs]; rfl
    rcases refillTurn_cases c atEntry out s with ⟨out', s1, hframe, heq⟩ | heq | ⟨s1, hframe, heq⟩ <;> rw [heq]
    · have hrefills : s1.refills = s.refills := readNFrame_refills hframe
      have hbuf : s1.buf = s.buf := readNFrame_buf hframe
      exact .collects hbefore rfl hrefills hbuf
    · exact .appends hbefore rfl rfl rfl
    · exact .ends rfl
  · have hbefore : refilling s.act = false := by rw [hs]; rfl
    cases c with
    | host => exact .ends rfl
    | read r => exact .pops hbefore rfl rfl rfl List.suffix_rfl
  · have hbefore : refilling s.act = false := by rw [hs]; rfl
    exact .starts hbefore rfl rfl rfl (by simp [hbuf])
  · have hbefore : refilling s.act = false := by rw [hs]; rfl
    exact .pops hbefore hdecoding hbefore rfl (hbuf ▸ List.suffix_cons w rest)

/-- Without a host's turn no DECODE_ONE starts. -/
theorem blockTurn_keeps_not_decoding {s t : State} (hact : decoding s.act = false) (hturn : blockTurn s = .next t) :
    decoding t.act = false := by
  have hnot (c : Caller) (ph : Phase) : s.act ≠ .decode c ph := fun h => by
    rw [h] at hact
    cases hact
  rcases blockTurn_cases s with ⟨-, heq⟩ | ⟨reached, -, heq⟩ | ⟨n, out, -, heq⟩ | ⟨c, hs, -⟩ |
    ⟨c, atEntry, out, hs, -⟩ | ⟨c, e, hs, -⟩ | ⟨c, hs, -⟩ | ⟨c, w, rest, hs, -⟩
  · cases heq.symm.trans hturn
    exact hact
  · cases heq.symm.trans hturn
    cases reached <;> rfl
  · cases heq.symm.trans hturn
    rcases hostReadNTurn_cases n out s with ⟨out', s1, -, heq⟩ | heq | ⟨s1, -, heq⟩ <;> rw [heq] <;> rfl
  all_goals exact absurd hs (hnot c _)

/-- Where a run from `s` can stand: outside DECODE_ONE, before its first refill, in it, or past it. -/
inductive RefillProgress (s t : State) : Prop
  | elsewhere (act : decoding t.act = false)
  | before (act : decoding t.act = true) (loop : refilling t.act = false) (refills : t.refills = s.refills)
      (popped : t.buf <:+ s.buf)
  | first (refills : t.refills = s.refills + 1) (act : refilling t.act = true) (popped : t.buf <:+ s.buf)
      (low : t.buf.length < 10)
  | past (act : decoding t.act = true) (refills : s.refills + 1 ≤ t.refills)
      (next : refilling t.act = true → s.refills + 2 ≤ t.refills)

theorem decoding_of_refilling {a : Activity} (h : refilling a = true) : decoding a = true := by
  obtain ⟨c, atEntry, out, rfl⟩ := refilling_iff.1 h
  rfl

theorem refillProgress_past {s t : State} (act : decoding t.act = true) (after : refilling t.act = false)
    (refills : s.refills + 1 ≤ t.refills) : RefillProgress s t :=
  .past act refills fun hrefill => absurd (hrefill.symm.trans after) nofun

theorem blockTurn_refillProgress {s t t' : State} (h : RefillProgress s t) (hturn : blockTurn t = .next t') :
    RefillProgress s t' := by
  cases h with
  | elsewhere act => exact .elsewhere (blockTurn_keeps_not_decoding act hturn)
  | before act loop refills popped =>
    cases blockTurn_refillEffect act hturn with
    | ends act' => exact .elsewhere act'
    | pops _ act' after' refills' buf' => exact .before act' after' (refills'.trans refills) (buf'.trans popped)
    | starts _ after' refills' buf' low => exact .first (by rw [refills', refills]) after' (buf' ▸ popped) (buf' ▸ low)
    | collects before' => cases loop.symm.trans before'
    | appends before' => cases loop.symm.trans before'
  | first refills act popped low =>
    cases blockTurn_refillEffect (decoding_of_refilling act) hturn with
    | ends act' => exact .elsewhere act'
    | pops before' => cases act.symm.trans before'
    | starts before' => cases act.symm.trans before'
    | collects _ after' refills' buf' => exact .first (refills'.trans refills) after' (buf' ▸ popped) (buf' ▸ low)
    | appends _ act' after' refills' =>
      exact refillProgress_past act' after' (by omega)
  | past act refills next =>
    cases blockTurn_refillEffect act hturn with
    | ends act' => exact .elsewhere act'
    | pops _ act' after' refills' =>
      exact refillProgress_past act' after' (by omega)
    | starts _ after' refills' => exact .past (decoding_of_refilling after') (by omega) fun _ => by omega
    | collects before' after' refills' =>
      have := next before'
      exact .past (decoding_of_refilling after') (by omega) fun _ => by omega
    | appends before' act' after' refills' =>
      exact refillProgress_past act' after' (by omega)

/-- A refill in progress finds fewer than 10 words, so a block with a whole batch is in none. -/
theorem refillProgress_start {s : State} (hinv : s.Inv) (hbatch : 100 ≤ s.buf.length) : RefillProgress s s := by
  cases hdecoding : decoding s.act with
  | false => exact .elsewhere hdecoding
  | true =>
    refine .before hdecoding (Bool.eq_false_iff.2 fun hrefill => ?_) rfl List.suffix_rfl
    obtain ⟨c, atEntry, out, hact⟩ := refilling_iff.1 hrefill
    have hlow : s.buf.length < 10 := (hinv.refillBound c atEntry out hact).2.1
    omega

/-- Settles O33: up to the first refill `BUF` only loses words at its front, and that refill starts with at most 9 left. -/
theorem ninetyOneWordsLieBetweenRefills : Obligations.NinetyOneWordsLieBetweenRefills := by
  intro s t k c atEntry hinv hagenda hbatch hrun hrefills hact
  have hrefilling : refilling t.act = true := refilling_iff.2 ⟨c, atEntry, [], hact⟩
  have hend : RefillProgress s t :=
    runFor_keeps_alone (fun _ _ => blockTurn_refillProgress) hagenda (refillProgress_start hinv hbatch) hrun
  cases hend with
  | elsewhere act => cases act.symm.trans (decoding_of_refilling hrefilling)
  | before act loop => cases loop.symm.trans hrefilling
  | first refills act popped low =>
    obtain ⟨words, hsplit⟩ := popped
    have hlength := congrArg List.length hsplit
    rw [List.length_append] at hlength
    exact ⟨words, hsplit.symm, by omega⟩
  | past act refills next =>
    have := next hrefilling
    omega

/-! ## Bits of a word that change nothing (30_encoding.md section 4) -/

theorem getLsbD_flip_bit28 (V : Word) {j : Nat} (hj : j ≠ 28) : (V ^^^ 0x10000000#32).getLsbD j = V.getLsbD j := by
  have hbit : (0x10000000#32).getLsbD j = false := by
    rw [show 0x10000000#32 = BitVec.twoPow 32 28 from rfl, BitVec.getLsbD_twoPow]
    simp [hj.symm]
  rw [BitVec.getLsbD_xor, hbit, Bool.xor_false]

theorem kindOf_flip_bit28 (V : Word) : kindOf (V ^^^ 0x10000000#32) = kindOf V := by
  apply BitVec.eq_of_getLsbD_eq
  intro j hj
  have h : 24 + j ≠ 28 := by omega
  simp only [kindOf, BitVec.getLsbD_extractLsb', getLsbD_flip_bit28 V h]

theorem payloadOf_flip_bit28 (V : Word) : payloadOf (V ^^^ 0x10000000#32) = payloadOf V := by
  apply BitVec.eq_of_getLsbD_eq
  intro j hj
  have h : 0 + j ≠ 28 := by omega
  simp only [payloadOf, BitVec.getLsbD_extractLsb', getLsbD_flip_bit28 V h]

theorem marksOf_flip_bit28 (V : Word) :
    marksOf (V ^^^ 0x10000000#32) = { marksOf V with x := (V ^^^ 0x10000000#32).getLsbD 28 } := by
  simp only [marksOf, getLsbD_flip_bit28 V (j := 31) (by decide), getLsbD_flip_bit28 V (j := 30) (by decide),
    getLsbD_flip_bit28 V (j := 29) (by decide)]

/-- No part of a word's meaning reads bit 28 (30_encoding.md R68). -/
theorem finishWord_unassigned (m : Marks) (x : Bool) (field : Event) (s : State) :
    finishWord { m with x := x } field s = finishWord m field s := rfl

/-- The field part reads the payload alone. -/
theorem fieldPart_ofKind_marks (k : BitVec 4) (m m' : Marks) (v : Payload) (e : Event) :
    fieldPart (ofKind k m v) e = fieldPart (ofKind k m' v) e := by
  unfold ofKind
  split <;> rfl

/-- Settles O7: the kind and the payload lie below bit 28, and of the marks above it no part of the word step reads it. -/
theorem bitTwentyEightIsIgnored : Obligations.BitTwentyEightIsIgnored := by
  intro V s
  refine ⟨by rw [kind_decode, kind_decode, kindOf_flip_bit28], _, exec_eq _ s, ?_⟩
  have hfield : fieldPart (decode (V ^^^ 0x10000000#32)) s.ev = fieldPart (decode V) s.ev := by
    rw [decode, decode, kindOf_flip_bit28, payloadOf_flip_bit28]
    exact fieldPart_ofKind_marks _ _ _ _ _
  rw [exec_eq, hfield, marks_decode, marks_decode, marksOf_flip_bit28, finishWord_unassigned]

theorem payload16_eq_extractLsb' (v : Payload) : payload16 v = v.extractLsb' 0 16 := by
  rw [payload16, BitVec.setWidth_eq_extractLsb' (by decide)]

theorem payload12_eq_extractLsb' (v : Payload) : payload12 v = (v.extractLsb' 0 12).setWidth 16 := by
  rw [payload12, BitVec.setWidth_eq_extractLsb' (v := 24) (w := 12) (by decide)]

/-- The payload of an unknown kind reaches no field (41_field_decode.md R108). -/
theorem exec_unknown_congr {i j : Instr} (hi : 7 ≤ i.kind.toNat) (hj : 7 ≤ j.kind.toNat) (hmarks : i.marks = j.marks)
    (s : State) : exec i s = exec j s := by
  rw [exec_of_unknown hi, exec_of_unknown hj, hmarks]

/-- Settles O8: the mask of Y and of PERIOD is an extraction of the low bits, and the unknown kinds have no field part. -/
theorem ignoredPayloadBitsChangeNothing : Obligations.IgnoredPayloadBitsChangeNothing := by
  intro m v w s
  refine ⟨?y, ?period, ?_, ?_, ?_, ?_, ?_, ?_, ?_, ?_, ?_⟩
  case y =>
    intro hlow
    have hmask : payload16 v = payload16 w := by rw [payload16_eq_extractLsb', payload16_eq_extractLsb', hlow]
    rw [exec_eq, exec_eq, fieldPart, fieldPart, hmask]
    rfl
  case period =>
    intro hlow
    have hmask : payload12 v = payload12 w := by rw [payload12_eq_extractLsb', payload12_eq_extractLsb', hlow]
    rw [exec_eq, exec_eq, fieldPart, fieldPart, hmask]
    rfl
  all_goals exact exec_unknown_congr (by simp [Instr.kind]) (by simp [Instr.kind]) rfl s

/-! ## CONNECT, and the end of a connection (40_frame_sync.md R89, 60_exceptions.md R161, R162, R175) -/

theorem hostTurn_connect {s : State} (herr : s.st.err = 0) (hbusy : s.st.busy = false) (ep : Endpoint) :
    hostTurn (.connect ep) s = startCommand (.connecting (s.reachable.contains ep)) s := by
  simp [hostTurn, Status.halted, herr, hbusy]

theorem blockTurn_connecting {s : State} {reached : Bool} (hact : s.act = .connecting reached) :
    blockTurn s = .next (connectTurn reached s) := by
  simp only [blockTurn, hact]

/-- Settles O45: the command is issued in one step, with the transport's answer, and ends in the next. -/
theorem connectOpensAFreshConnectionOrRaises : Obligations.ConnectOpensAFreshConnectionOrRaises := by
  intro s ep hagenda herr hbusy
  have hstart : step s =
      .next (startCommand (.connecting (s.reachable.contains ep)) { s with agenda := [] }) := by
    rw [step_host hagenda, hostTurn_connect (s := { s with agenda := [] }) herr hbusy]
  have hend := (step_empty rfl).trans (blockTurn_connecting (reached := s.reachable.contains ep)
    (s := startCommand (.connecting (s.reachable.contains ep)) { s with agenda := [] }) rfl)
  rw [runFor_succ_next hstart, runFor_succ_next hend]
  by_cases hreach : ep ∈ s.reachable
  · rw [List.contains_iff_mem.2 hreach, if_pos hreach]
    rfl
  · have hunreached : s.reachable.contains ep = false := by simpa using hreach
    rw [hunreached, if_neg hreach]
    rfl

theorem hostTurn_closeTransport {s : State} (hlink : s.link ≠ .absent) :
    hostTurn .closeTransport s = { s with link := .ended, rx := [] } := by
  cases hl : s.link with
  | absent => exact absurd hl hlink
  | up => simp only [hostTurn, breakLink, hl]
  | ended => simp only [hostTurn, breakLink, hl]

/-- Settles O56: the close leaves at most the bytes in `FS.asm`, fewer than a record, and no more will come. -/
theorem closingTheTransportRaisesAtThePendingRxTake : Obligations.ClosingTheTransportRaisesAtThePendingRxTake := by
  intro s hagenda hlink hasm hpending
  have hclose : step s = .next { s with agenda := [], link := .ended, rx := [] } := by
    rw [step_host hagenda, hostTurn_closeTransport (s := { s with agenda := [] }) hlink]
  have hshort : (s.fs.asm ++ []).length < 8 := by
    rw [List.append_nil]
    exact Nat.lt_succ_of_le hasm
  have hraise := brokenTransportHaltsTheBlock { s with agenda := [], link := .ended, rx := [] } rfl hshort nofun hpending
  rw [runFor_succ_next hclose, runFor_succ_next hraise]
  rfl

theorem step_transport {s : State} {a : TransportAct} {later : List Turn} (h : s.agenda = .transport a :: later) :
    step s = .next (transportTurn a { s with agenda := later }) := by
  rw [step_turn h, turn_transport]

theorem transportTurn_deliver (bytes : List Byte) (s : State) :
    transportTurn (.deliver bytes) s = { s with rx := if s.link = .up then s.rx ++ bytes else s.rx } := by
  simp only [transportTurn]
  split
  · next hlink => rw [if_pos hlink]
  · next hlink => rw [if_neg (by simp [hlink])]
  · next hlink => rw [if_neg (by simp [hlink])]

theorem transportTurn_close (s : State) :
    transportTurn .close s = { s with link := if s.link = .up then .ended else s.link } := by
  simp only [transportTurn]
  split
  · next hlink => rw [if_pos hlink]
  · next hlink => rw [if_neg (by simp [hlink])]
  · next hlink => rw [if_neg (by simp [hlink])]

theorem transportTurn_fail {s : State} (hlink : s.link ≠ .absent) :
    transportTurn .fail s = { s with link := .ended, rx := [] } := hostTurn_closeTransport hlink

/-- Settles O57: each action of the transport is one update of the channel or of the endpoints. -/
theorem transportTurnsChangeTheChannelOnly : Obligations.TransportTurnsChangeTheChannelOnly := by
  intro s later
  refine ⟨?deliver, ?close, ?fail, ?setReachable⟩
  case deliver =>
    intro bytes hagenda
    rw [step_transport hagenda, transportTurn_deliver]
  case close =>
    intro hagenda
    rw [step_transport hagenda, transportTurn_close]
  case fail =>
    intro hagenda hlink
    rw [step_transport hagenda, transportTurn_fail (s := { s with agenda := later }) hlink]
  case setReachable =>
    intro eps hagenda
    rw [step_transport hagenda]
    rfl

/-! ## EVT (20_memory.md section 5, 60_exceptions.md section 4) -/

/-- Everything a turn of the block can do to EVT. -/
inductive EvtEffect (s t : State) : Prop
  | keeps (evt : t.evt = s.evt)
  | appends (e : Event) (c : Cfg) (fin : s.fin = some e) (act : s.act = .decode (.read c) .words)
      (evt : t.evt = s.evt ++ [e])
  | voids (c : Cfg) (ph : Phase) (before : s.act = .decode (.read c) ph) (act : t.act = .idle) (err : t.st.err = 2)
      (evt : t.evt = s.evt.take (s.evt.length - s.lf.count))

/-- TransportError takes the Events of a READ off EVT, and of any other command none. -/
theorem raise_transportError_evtEffect {s u : State} (h : ReadNFrame s u) : EvtEffect s (raise .transportError u) := by
  have hvalid : (raise .transportError u).evt = validEvents s := by
    rw [raise_evt, h.1]
    rfl
  rcases validEvents_cases s with ⟨⟨c, ph, hact⟩, hvoid⟩ | ⟨-, hkept⟩
  · exact .voids c ph hact rfl rfl (hvalid.trans hvoid)
  · exact .keeps (hvalid.trans hkept)

theorem connectTurn_evt {s : State} {reached : Bool} (hact : s.act = .connecting reached) :
    (connectTurn reached s).evt = s.evt := by
  cases reached with
  | true => rfl
  | false => exact validEvents_of_not_read (by simp [hact])

theorem hostReadNTurn_evtEffect (n : Nat) (out : List RawWord) (s : State) : EvtEffect s (hostReadNTurn n out s) := by
  rcases hostReadNTurn_cases n out s with ⟨out', s1, hframe, heq⟩ | heq | ⟨s1, hframe, heq⟩ <;> rw [heq]
  · obtain ⟨-, -, hevt⟩ := readNFrame_ev_fin_evt hframe
    exact .keeps hevt
  · exact .keeps rfl
  · exact raise_transportError_evtEffect hframe

theorem refillTurn_evtEffect (c : Caller) (atEntry : Bool) (out : List RawWord) (s : State) :
    EvtEffect s (refillTurn c atEntry out s) := by
  rcases refillTurn_cases c atEntry out s with ⟨out', s1, hframe, heq⟩ | heq | ⟨s1, hframe, heq⟩ <;> rw [heq]
  · obtain ⟨-, -, hevt⟩ := readNFrame_ev_fin_evt hframe
    exact .keeps hevt
  · exact .keeps rfl
  · exact raise_transportError_evtEffect hframe

@[simp] theorem entryTurn_evt (c : Caller) (s : State) : (entryTurn c s).evt = s.evt := by
  rcases entryTurn_cases c s with ⟨-, -, heq⟩ | ⟨-, -, heq⟩ | ⟨-, heq⟩ <;> simp [heq]

theorem deliver_evtEffect {s : State} {c : Caller} {e : Event} (hact : s.act = .decode c .words) (hfin : s.fin = some e) :
    EvtEffect s (deliver c e s) := by
  cases c with
  | host => exact .keeps rfl
  | read r =>
    have hevt : (deliver (.read r) e s).evt = s.evt ++ passed r s.lf.logging e := lfStep_evt_passed r e _
    cases happ : appends s.lf.logging r e with
    | true => exact .appends e r hfin hact (by simpa [passed, happ] using hevt)
    | false => exact .keeps (by simpa [passed, happ] using hevt)

theorem blockTurn_evtEffect {s t : State} (hturn : blockTurn s = .next t) : EvtEffect s t := by
  rcases blockTurn_cases s with ⟨-, heq⟩ | ⟨reached, hact, heq⟩ | ⟨n, out, -, heq⟩ | ⟨c, -, heq⟩ |
    ⟨c, atEntry, out, -, heq⟩ | ⟨c, e, hact, hfin, heq⟩ | ⟨c, -, -, -, heq⟩ | ⟨c, w, rest, -, -, -, heq⟩ <;>
    cases heq.symm.trans hturn
  · exact .keeps rfl
  · exact .keeps (connectTurn_evt hact)
  · exact hostReadNTurn_evtEffect n out s
  · exact .keeps (entryTurn_evt c s)
  · exact refillTurn_evtEffect c atEntry out s
  · exact deliver_evtEffect hact hfin
  · exact .keeps rfl
  · exact .keeps rfl

/-- The turn that is taken off the agenda is no part of what the block does to EVT. -/
theorem EvtEffect.of_agenda {s t : State} {later : List Turn} (h : EvtEffect { s with agenda := later } t) :
    EvtEffect s t := by
  cases h with
  | keeps evt => exact .keeps evt
  | appends e c fin act evt => exact .appends e c fin act evt
  | voids c ph before act err evt => exact .voids c ph before act err evt

/-- Of the host's actions only RESET and taking an Event touch EVT. -/
theorem hostTurn_evt (a : HostAct) (s : State) :
    (hostTurn a s).evt = s.evt ∨ (a = .reset ∧ hostTurn a s = resetBlock s) ∨
    (∃ e, a = .takeEvent ∧ s.evt = e :: (hostTurn a s).evt ∧ (hostTurn a s).replies = s.replies ++ [.taken e]) := by
  rcases hostTurn_cases a s with heq | ⟨hreset, heq⟩ | ⟨ep, -, -, -, heq⟩ | ⟨w, -, -, heq⟩ | ⟨-, -, -, -, heq⟩ |
    ⟨-, -, -, -, heq⟩ | ⟨n, -, -, -, -, heq⟩ | ⟨-, heq⟩ | ⟨e, rest, htake, hevt, heq⟩ | ⟨-, -, heq⟩
  · exact .inl (by rw [heq])
  · exact .inr (.inl ⟨hreset, heq⟩)
  · exact .inl (by rw [heq, startCommand_evt])
  · exact .inl (by rw [heq])
  · exact .inl (by rw [heq, startRead_evt])
  · exact .inl (by rw [heq, startCommand_evt])
  · exact .inl (by rw [heq, startCommand_evt])
  · exact .inl (by rw [heq, reply_evt])
  · exact .inr (.inr ⟨e, htake, by rw [heq, hevt], by rw [heq]⟩)
  · exact .inl (by rw [heq])

@[simp] theorem transportTurn_evt (a : TransportAct) (s : State) : (transportTurn a s).evt = s.evt := by
  rcases transportTurn_cases a s with heq | ⟨eps, -, heq⟩ | ⟨bytes, -, -, heq⟩ | ⟨-, -, heq⟩ | ⟨-, -, heq⟩ <;> simp [heq]

/-- Settles O55: the block appends and voids, the host takes and resets, and the transport does not touch EVT. -/
theorem evtIsAQueueOfCopies : Obligations.EvtIsAQueueOfCopies := by
  intro s t hstep
  rcases step_cases s with ⟨s0, hagenda, heq⟩ | ⟨a, rest, hagenda, heq⟩ | ⟨a, rest, -, heq⟩
  · have hturn : EvtEffect s0 t := blockTurn_evtEffect (heq.symm.trans hstep)
    have heffect : EvtEffect s t := by
      rcases hagenda with ⟨-, rfl⟩ | ⟨rest, -, rfl⟩
      · exact hturn
      · exact hturn.of_agenda
    cases heffect with
    | keeps evt => exact .inl evt
    | appends e c fin act evt => exact .inr (.inl ⟨e, c, fin, act, evt⟩)
    | voids c ph before act err evt => exact .inr (.inr (.inr ⟨⟨c, ph, before⟩, act, .inl err, evt⟩))
  · cases heq.symm.trans hstep
    rcases hostTurn_evt a { s with agenda := rest } with hkept | ⟨rfl, hreset⟩ | ⟨e, rfl, htaken, hreply⟩
    · exact .inl hkept
    · rw [hreset]
      rcases validEvents_cases { s with agenda := rest } with ⟨hread, hvoid⟩ | ⟨-, hkept⟩
      · exact .inr (.inr (.inr ⟨hread, rfl, .inr ⟨rest, hagenda⟩, hvoid⟩))
      · exact .inl hkept
    · exact .inr (.inr (.inl ⟨e, rest, hagenda, htaken, hreply⟩))
  · cases heq.symm.trans hstep
    exact .inl (transportTurn_evt a _)

/-! ## The model's own: a placed word, and what RESET keeps (log 6, log 13, log 29) -/

theorem tableBytes_word {w : Nat} (hw : w < 2 ^ 32) : tableBytes 32 w = encodeRecord (BitVec.ofNat 32 w) 0#32 := by
  rw [tableBytes, Nat.mod_eq_of_lt hw, Nat.div_eq_of_lt hw]

theorem decodeTableWord_word {w : Nat} (hw : w < 2 ^ 32) :
    decodeTableWord 32 w = some (decode (BitVec.ofNat 32 w)) := by
  rw [decodeTableWord, if_pos (by decide), tableBytes_word hw, decodeRecord, parseRecord_encodeRecord]

theorem tableRecord_word {w : Nat} (hw : w < 2 ^ 32) : (tableRecord 32 w).word = BitVec.ofNat 32 w := by
  rw [tableRecord, tableBytes_word hw, parseRecord_encodeRecord]

/-- Settles O23: the placed state is that of a DECODE_ONE that pops the word, whose record has the word's bits. -/
theorem placedWordIsRunByTheNextStep : Obligations.PlacedWordIsRunByTheNextStep := by
  intro s w hw
  refine ⟨decodeTableWord_word hw, ?_⟩
  have hpop : step (s.withFetchWord 32 w) = _ := (step_empty rfl).trans (blockTurn_pop rfl rfl rfl)
  rw [hpop, tableRecord_word hw]
  rfl

/-- Settles O48: the one step is `resetBlock`, which starts from the reset state and keeps these four fields. -/
theorem resetKeepsTheEnvironment : Obligations.ResetKeepsTheEnvironment := by
  intro s later hagenda
  rw [step_reset hagenda, resetBlock, validEvents_eq_evtWithoutTheRead]
  rfl

end Sys2Proof.Proofs
end
